-- ==== Sys2Proof/Word.lean ====
section
/-! DEFINITION. The widths of spec/00_scope.md rule R6, the small closed types every other file uses, and the
clock parameter `MCLK` as a positive rational. -/

namespace Sys2Proof

/-- An output word, 16 bits (R6 `WORD_BITS`). -/
abbrev Word := BitVec 16

/-- A command code `CMD`, 8 bits (R61). -/
abbrev Code := BitVec 8

/-- A frequency register value, 28 bits (R6 `FREQ_BITS`). -/
abbrev Freq := BitVec 28

/-- One half of a frequency register value, 14 bits (R6 `HALF_BITS`); also the payload of a control word. -/
abbrev Half := BitVec 14

/-- A phase register value, 12 bits (R6 `PHASE_BITS`). -/
abbrev Phase := BitVec 12

/-- A register slot: FREQ0 / PHASE0 or FREQ1 / PHASE1 (R6 `N_FREQ`, `N_PHASE`). -/
inductive Slot where
  | s0
  | s1
deriving DecidableEq, Repr

/-- The four waveform shapes of R28. -/
inductive Wave where
  | sine
  | triangle
  | squareDiv2
  | square
deriving DecidableEq, Repr

/-- The five target registers of R39. -/
inductive Reg where
  | control
  | freq0
  | freq1
  | phase0
  | phase1
deriving DecidableEq, Repr

/-- What the transport does with one word: the draw `bus_ok` of R9 together with the fate of a failed word, which
R58 (c) leaves open (the chip applied it, or it did not). -/
inductive Answer where
  /-- The transfer succeeded and the word reached the chip. -/
  | ok
  /-- The transfer was reported failed and the word did not reach the chip. -/
  | failedLost
  /-- The transfer was reported failed and the word reached the chip all the same. -/
  | failedLanded
deriving DecidableEq, Repr, Inhabited

/-- The parameter `MCLK`: "a positive rational number" of hertz (R6, R127). A clock that is zero or negative is outside
the spec and "the model refuses such a configuration" (R127, D28): it cannot be built. -/
structure Clock where
  hz : Rat
  pos : 0 < hz
deriving DecidableEq, Repr

/-- The configuration a rational gives, refused where it is not positive (R127). -/
def Clock.make (q : Rat) : Option Clock :=
  if h : 0 < q then some ⟨q, h⟩ else none

end Sys2Proof
end

