-- ==== Sys2Proof/Syntax.lean ====
section
/-! DEFINITION. What is presented to the machine (`Input`), what it means as an instruction (`Instr`, one constructor per
row of spec/opcode_table.json), and the ways a command code is illegal. -/

namespace Sys2Proof

/-- The rows of the opcode map R78: the eight commands of R63 with the operand shapes of R67, and the five output words of
R69 to R71. -/
inductive Instr where
  /-- `initialize()` (R90). -/
  | init
  /-- `setFrequency(hz, register)` (R94). -/
  | setfreq (slot : Slot) (hz : Rat)
  /-- `setFrequency(hz)` on the active register (R95). -/
  | setfreqA (hz : Rat)
  /-- `setPhase(degrees, register)` (R98). -/
  | setphase (slot : Slot) (deg : Rat)
  /-- `setPhase(degrees)` on the active register (R99). -/
  | setphaseA (deg : Rat)
  /-- `toggleFrequencySelect()` (R100). -/
  | togglef
  /-- `togglePhaseSelect()` (R101). -/
  | togglep
  /-- `setWaveform(shape)` (R102). -/
  | setwave (shape : Wave)
  /-- A control word with payload `w[13:0]` (R69). -/
  | wCtrl (c : Half)
  /-- A frequency word for FREQ0 with payload `w[13:0]` (R70). -/
  | wFreq0 (d : Half)
  /-- A frequency word for FREQ1 with payload `w[13:0]` (R70). -/
  | wFreq1 (d : Half)
  /-- A phase word for PHASE0 with bit `w[12]` and payload `w[11:0]` (R71). -/
  | wPhase0 (x : BitVec 1) (p : Phase)
  /-- A phase word for PHASE1 with bit `w[12]` and payload `w[11:0]` (R71). -/
  | wPhase1 (x : BitVec 1) (p : Phase)
deriving DecidableEq, Repr

/-- What is presented: a command `(CMD, ARG)` on the command port (R61), or a 16-bit word at the chip (R41). -/
inductive Input where
  | cmd (code : Code) (arg : Rat)
  | word (w : Word)
deriving DecidableEq, Repr

/-- Why a command code is illegal (R74). -/
inductive Illegal where
  /-- `OP` is 0x0 or 0x7 to 0xF. -/
  | reservedOp
  /-- A must-be-zero field of a defined `OP` is not zero. -/
  | mustBeZero
  /-- `E = 0` with `S = 1`. -/
  | slotNotExplicit
deriving DecidableEq, Repr

/-- A decoded output word (R73). -/
inductive OutWord where
  | control (c : Half)
  | freq (slot : Slot) (d : Half)
  | phase (slot : Slot) (x : BitVec 1) (p : Phase)
deriving DecidableEq, Repr

end Sys2Proof
end

