-- ==== Sys2Proof/WellFormed.lean ====
section
/-! DEFINITION. Which instructions the block itself can produce: every command, and of the output words those that R72 does
not exclude by their bits alone. An ill-formed word still decodes (R73 is total) and still has its meaning at the chip
(DEDUCED, assumption 17, safe). -/

namespace Sys2Proof

/-- The bits of a control payload that are zero in every word the block emits: 9, 7, 6, 4, 2 and 0 (R24, R72). -/
def ctrlReserved : Half := 0x02D5#14

/-- A word the block may emit (R72), or a command. -/
def Instr.wellFormed : Instr → Bool
  | .init => true
  | .setfreq _ _ => true
  | .setfreqA _ => true
  | .setphase _ _ => true
  | .setphaseA _ => true
  | .togglef => true
  | .togglep => true
  | .setwave _ => true
  | .wCtrl c => c &&& ctrlReserved == 0#14
  | .wFreq0 _ => true
  | .wFreq1 _ => true
  | .wPhase0 x _ => x == 0#1
  | .wPhase1 x _ => x == 0#1

end Sys2Proof
end

