-- ==== Sys2Proof/Decode.lean ====
section
/-! DEFINITION. The decoder and the encoder of spec/30_encoding.md: command codes (R62 to R66, R74), output words (R69 to
R73), and the numbering of spec/opcode_table.json. -/

namespace Sys2Proof

/-- `OP = cmd[7:4]` (R62). -/
def Code.op (c : Code) : BitVec 4 := c.extractLsb' 4 4

/-- `E = cmd[3]` (R62). -/
def Code.e (c : Code) : BitVec 1 := c.extractLsb' 3 1

/-- `S = cmd[2]` (R62). -/
def Code.s (c : Code) : BitVec 1 := c.extractLsb' 2 1

/-- `W = cmd[1:0]` (R62). -/
def Code.w (c : Code) : BitVec 2 := c.extractLsb' 0 2

/-- `Legal(CMD)` as R66 writes it. -/
def legal (c : Code) : Bool :=
  if Code.op c = 0x1#4 ∨ Code.op c = 0x4#4 ∨ Code.op c = 0x5#4 then c.extractLsb' 0 4 == 0#4
  else if Code.op c = 0x2#4 ∨ Code.op c = 0x3#4 then Code.w c == 0#2 && (Code.e c == 1#1 || Code.s c == 0#1)
  else if Code.op c = 0x6#4 then Code.e c == 0#1 && Code.s c == 0#1
  else false

/-- The slot a register operand bit `S` names (R62). -/
def Slot.ofBit (b : BitVec 1) : Slot := if b = 1#1 then .s1 else .s0

/-- The register operand bit of a slot (R62). -/
def Slot.bit : Slot → BitVec 1
  | .s0 => 0#1
  | .s1 => 1#1

/-- The shape a `W` field names (R65). -/
def Wave.ofBits (w : BitVec 2) : Wave :=
  if w = 0#2 then .sine else if w = 1#2 then .triangle else if w = 2#2 then .squareDiv2 else .square

/-- The `W` field of a shape (R65), which is also the two-bit encoding of `WAVE` (R28). -/
def Wave.bits : Wave → BitVec 2
  | .sine => 0#2
  | .triangle => 1#2
  | .squareDiv2 => 2#2
  | .square => 3#2

/-- A command that takes no operand: `E`, `S` and `W` must be zero (R64, R65). -/
def decodePlain (c : Code) (i : Instr) : Except Illegal Instr :=
  if c.extractLsb' 0 4 = 0#4 then .ok i else .error .mustBeZero

/-- SETFREQ and SETPHASE with their active forms: `E = 1` names slot `S`, `E = 0` requires `S = 0` (R64). -/
def decodeSlotted (c : Code) (explicit : Slot → Instr) (active : Instr) : Except Illegal Instr :=
  if Code.w c = 0#2 then
    if Code.e c = 1#1 then .ok (explicit (Slot.ofBit (Code.s c)))
    else if Code.s c = 0#1 then .ok active
    else .error .slotNotExplicit
  else .error .mustBeZero

/-- Decoding a command (R63, R74): total on the 256 codes, an illegal one refused with its reason
(which reason, where several hold: DESIGN CHOICE, assumption 14, safe). -/
def decodeCmd (c : Code) (arg : Rat) : Except Illegal Instr :=
  if Code.op c = 0x1#4 then decodePlain c .init
  else if Code.op c = 0x2#4 then decodeSlotted c (fun s => .setfreq s arg) (.setfreqA arg)
  else if Code.op c = 0x3#4 then decodeSlotted c (fun s => .setphase s arg) (.setphaseA arg)
  else if Code.op c = 0x4#4 then decodePlain c .togglef
  else if Code.op c = 0x5#4 then decodePlain c .togglep
  else if Code.op c = 0x6#4 then
    if c.extractLsb' 2 2 = 0#2 then .ok (.setwave (Wave.ofBits (Code.w c))) else .error .mustBeZero
  else .error .reservedOp

/-- `DecodeWord(w)` (R73): total on the 65536 words. -/
def decodeOut (w : Word) : OutWord :=
  if w.extractLsb' 14 2 = 0b00#2 then .control (w.extractLsb' 0 14)
  else if w.extractLsb' 14 2 = 0b01#2 then .freq .s0 (w.extractLsb' 0 14)
  else if w.extractLsb' 14 2 = 0b10#2 then .freq .s1 (w.extractLsb' 0 14)
  else if w.extractLsb' 13 3 = 0b110#3 then .phase .s0 (w.extractLsb' 12 1) (w.extractLsb' 0 12)
  else .phase .s1 (w.extractLsb' 12 1) (w.extractLsb' 0 12)

/-- The target register of a decoded word (R73). -/
def OutWord.reg : OutWord → Reg
  | .control _ => .control
  | .freq .s0 _ => .freq0
  | .freq .s1 _ => .freq1
  | .phase .s0 _ _ => .phase0
  | .phase .s1 _ _ => .phase1

/-- The instruction an output word is, by the rows of R78. -/
def OutWord.instr : OutWord → Instr
  | .control c => .wCtrl c
  | .freq .s0 d => .wFreq0 d
  | .freq .s1 d => .wFreq1 d
  | .phase .s0 x p => .wPhase0 x p
  | .phase .s1 x p => .wPhase1 x p

/-- Decoding whatever is presented. -/
def decode : Input → Except Illegal Instr
  | .cmd c arg => decodeCmd c arg
  | .word w => .ok (decodeOut w).instr

/-- A command code assembled from its fields (R62). -/
def assembleCode (op : BitVec 4) (e s : BitVec 1) (w : BitVec 2) : Code := op ++ e ++ s ++ w

/-- The encoder: the command `(CMD, ARG)` or the word of an instruction, by the rows of R78. A command that ignores `ARG`
(R67) is encoded with `ARG = 0` (DESIGN CHOICE, assumption 7, safe). -/
def encode : Instr → Input
  | .init => .cmd (assembleCode 0x1#4 0#1 0#1 0#2) 0
  | .setfreq s hz => .cmd (assembleCode 0x2#4 1#1 s.bit 0#2) hz
  | .setfreqA hz => .cmd (assembleCode 0x2#4 0#1 0#1 0#2) hz
  | .setphase s deg => .cmd (assembleCode 0x3#4 1#1 s.bit 0#2) deg
  | .setphaseA deg => .cmd (assembleCode 0x3#4 0#1 0#1 0#2) deg
  | .togglef => .cmd (assembleCode 0x4#4 0#1 0#1 0#2) 0
  | .togglep => .cmd (assembleCode 0x5#4 0#1 0#1 0#2) 0
  | .setwave v => .cmd (assembleCode 0x6#4 0#1 0#1 v.bits) 0
  | .wCtrl c => .word (0b00#2 ++ c)
  | .wFreq0 d => .word (0b01#2 ++ d)
  | .wFreq1 d => .word (0b10#2 ++ d)
  | .wPhase0 x p => .word (0b110#3 ++ x ++ p)
  | .wPhase1 x p => .word (0b111#3 ++ x ++ p)

/-- The input whose bits, numbered as spec/opcode_table.json numbers them, are `w`: a row of 8 bits is a command code and a
row of 16 bits an output word. The operand `ARG`, which the table gives no bits, is zero (DESIGN CHOICE, assumption 7, safe). -/
def Input.ofTable (nbits w : Nat) : Option Input :=
  if nbits = 8 then some (.cmd (BitVec.ofNat 8 w) 0)
  else if nbits = 16 then some (.word (BitVec.ofNat 16 w))
  else none

/-- What the decoder reads from an instruction of `nbits` bits with value `w`; `none` where it refuses. -/
def decodeTableWord (nbits w : Nat) : Option Instr :=
  match Input.ofTable nbits w with
  | some i => (decode i).toOption
  | none => none

end Sys2Proof
end

