-- ==== Sys2Proof/Config.lean ====
section
/-! DEFINITION. What the spec leaves OPEN: constants without a body, so that nothing can be proved of their values. -/

namespace Sys2Proof

/-- OPEN (R6, D6): numerator of `MCLK`, less one. -/
opaque Config.mclkNum : Nat

/-- OPEN (R6, D6): denominator of `MCLK`, less one. -/
opaque Config.mclkDen : Nat

theorem Config.mclk_pos : (0 : Rat) < mkRat (Config.mclkNum + 1) (Config.mclkDen + 1) := by
  rw [Rat.mkRat_eq_div]
  positivity

/-- OPEN (R6, D6): the clock a machine is configured with at construction, any positive rational
(DESIGN CHOICE: a constant without a body, assumption 1, safe). -/
def Config.mclk : Clock := ⟨mkRat (Config.mclkNum + 1) (Config.mclkDen + 1), Config.mclk_pos⟩

/-- OPEN (R10, R58 (c), D12): the transport's answer to the word numbered `n`, where the state lists none: a
free value (DESIGN CHOICE, assumption 2, safe). -/
opaque Config.answer : Nat → Answer

/-- OPEN (R52): the chip's control payload at power-on, "any value": a free value, as the three below (DESIGN CHOICE,
assumption 3, safe). -/
opaque Config.chipCtrl : Half

/-- OPEN (R52): the chip's frequency registers at power-on (assumption 3). -/
opaque Config.chipFreq : Slot → Freq

/-- OPEN (R52): the chip's phase registers at power-on (assumption 3). -/
opaque Config.chipPhase : Slot → Phase

/-- OPEN (R52): the chip's pending half at power-on (assumption 3). -/
opaque Config.chipPend : Option (Slot × Half)

end Sys2Proof
end

