-- ==== Sys2Proof/Machine/State.lean ====
section
/-! DEFINITION. The state of the machine as plain data: the shadow, STATUS and sequencer of the block (R15, R36), the
reference chip model's registers (R52), the ports, and the state after power-on (R34). -/

namespace Sys2Proof.Machine

/-- The faults of the reference chip model (R58). Raised by `ChipRegs.receive`; the chip then holds no register value. Safe: the
model stops where a real chip goes on. -/
inductive Fault where
  /-- R58 (a): a frequency word arrived under B28 = 1 while the other slot's half was pending. Raised by `ChipRegs.receive`;
  answered by a step only when a word is sent to a chip that has stopped for it. Safe. -/
  | otherSlotPending
  /-- R58 (b): a frequency word arrived under B28 = 0 while a half was pending. Raised by `ChipRegs.receive`; answered by a
  step only when a word is sent to a chip that has stopped for it. Safe. -/
  | pairHalfDone
deriving DecidableEq, Repr

/-- Why a step has no meaning. -/
inductive Refusal where
  /-- An instruction whose meaning is not written. No arm of `exec` raises it. Safe. -/
  | notModelled (mnemonic : String)
deriving DecidableEq, Repr

/-- The shadow of the chip's registers with the SYNCED flag: what a command stages and commits (R11, R15). -/
structure Shadow where
  /-- `CTRL`, the shadow control word (R16, R17). -/
  ctrl : Word
  /-- `FREQ[0]` (R25). -/
  freq0 : Freq
  /-- `FREQ[1]` (R25). -/
  freq1 : Freq
  /-- `PHASE[0]` (R26). -/
  phase0 : Phase
  /-- `PHASE[1]` (R26). -/
  phase1 : Phase
  /-- `WAVE`, the currently selected waveform (R28). -/
  wave : Wave
  /-- `SYNCED`, 1 while the shadow may be taken to equal the chip's registers (R29). -/
  synced : Bool
deriving DecidableEq, Repr

/-- The sequencer while a command runs (R36): the decoded command, the staged copy of the shadow, the word list, and the step
index (R27). -/
structure Sequencer where
  cmd : Instr
  staged : Shadow
  words : List Word
  index : Nat
deriving DecidableEq, Repr

/-- The registers of the reference chip model (R52). -/
structure ChipRegs where
  /-- `chip.CTRL`, the last control payload. -/
  ctrl : Half
  /-- `chip.FREQ[0]`. -/
  freq0 : Freq
  /-- `chip.FREQ[1]`. -/
  freq1 : Freq
  /-- `chip.PHASE[0]`. -/
  phase0 : Phase
  /-- `chip.PHASE[1]`. -/
  phase1 : Phase
  /-- `chip.pend`, a lower half received in 28-bit mode and not yet completed. -/
  pend : Option (Slot × Half)
deriving DecidableEq, Repr

/-- The reference chip model: running with its registers, or stopped by a case R58 does not define, "a fault of the reference
model, never … a value" (DEDUCED, assumption 5, safe). -/
inductive Chip where
  | live (regs : ChipRegs)
  | stopped (why : Fault)
deriving DecidableEq, Repr

/-- One event of the trace (R13). -/
inductive Event where
  | sessionBegin
  | write (w : Word) (ok : Bool)
  | sessionEnd
deriving DecidableEq, Repr

/-- The record a response carries beside its code (R104). -/
inductive Info where
  | none
  /-- INVALID_ARG: the argument value. -/
  | argument (value : Rat)
  /-- BUS_FAIL: the 1-based index of the failed word in the command's list. -/
  | wordIndex (k : Nat)
  /-- ILLEGAL_CMD: the command code. -/
  | commandCode (code : Code)
deriving DecidableEq, Repr

/-- One response on the response port (R118). -/
structure Response where
  code : BitVec 3
  info : Info
deriving DecidableEq, Repr

/-- The machine. The first three fields are the block's (R15, R36), `chip` is the reference model's (R52), and the rest are the
parameter and the ports, which the block's own state does not hold and a step needs as data. -/
structure State where
  /-- `CTRL`, `FREQ`, `PHASE`, `WAVE` and `SYNCED`. -/
  shadow : Shadow
  /-- `STATUS`, the result code of the last command (R30). -/
  status : BitVec 3
  /-- The sequencer: idle, or running a command (R36). -/
  seq : Option Sequencer
  /-- The reference model of the driven chip (R52). -/
  chip : Chip
  /-- The parameter `MCLK` (R6), which no step writes (DESIGN CHOICE, assumption 1, safe). -/
  mclk : Clock
  /-- What the client holds at the command port, or sends to the chip, oldest first (R47; DESIGN CHOICE, assumption 6, safe). -/
  inputs : List Input
  /-- The transport's answers to the words to come, oldest first; where there is none, `Config.answer` decides (R10;
  DESIGN CHOICE, assumption 2, safe). -/
  answers : List Answer
  /-- How many words have been transferred: the free value's counter (DESIGN CHOICE, assumption 2, safe). -/
  draws : Nat
  /-- The output word port since power-on, oldest event first (R13; DESIGN CHOICE, assumption 9, safe). -/
  trace : List Event
  /-- The response port since power-on, oldest response first (R118; DESIGN CHOICE, assumption 9, safe). -/
  responses : List Response
deriving DecidableEq, Repr

/-- The shadow at power-on (R34). -/
def Shadow.powerOn : Shadow where
  ctrl := 0x0000#16
  freq0 := 0#28
  freq1 := 0#28
  phase0 := 0#12
  phase1 := 0#12
  wave := .sine
  synced := false

/-- The chip at power-on: "any value" (R52). -/
def ChipRegs.powerOn : ChipRegs where
  ctrl := Config.chipCtrl
  freq0 := Config.chipFreq .s0
  freq1 := Config.chipFreq .s1
  phase0 := Config.chipPhase .s0
  phase1 := Config.chipPhase .s1
  pend := Config.chipPend

/-- The state after power-on (R34, R123): STATUS = NONE, sequencer idle, no word and no session emitted. -/
def State.reset : State where
  shadow := Shadow.powerOn
  status := 7#3
  seq := none
  chip := .live ChipRegs.powerOn
  mclk := Config.mclk
  inputs := []
  answers := []
  draws := 0
  trace := []
  responses := []

end Sys2Proof.Machine
end

