-- ==== Sys2Proof/Machine/Flags.lean ====
section
/-! DEFINITION. The fields of the control word (R17, at the positions the spec decides in D2; DESIGN CHOICE, assumption 10),
the waveform patterns (R88), and the result codes (R30, R104). -/

namespace Sys2Proof.Machine

/-- 28-bit write mode, bit 13 (R17, R18). -/
def maskB28 : Word := 0x2000#16

/-- Hold-last-word, bit 12 (R17, R19). -/
def maskHLB : Word := 0x1000#16

/-- Active frequency register, bit 11 (R17, R20). -/
def maskFSELECT : Word := 0x0800#16

/-- Active phase register, bit 10 (R17, R21). -/
def maskPSELECT : Word := 0x0400#16

/-- Reset-active, bit 8 (R17, R22). -/
def maskRESET : Word := 0x0100#16

/-- Bit 7, always 0 in the block (R17, R24). -/
def maskSLEEP1 : Word := 0x0080#16

/-- Bit 6, always 0 in the block (R17, R24). -/
def maskSLEEP12 : Word := 0x0040#16

/-- Output-bit-enable, bit 5 (R17, R23). -/
def maskOPBITEN : Word := 0x0020#16

/-- Square-wave divide-by-two, bit 3 (R17, R23). -/
def maskDIV2 : Word := 0x0008#16

/-- Output waveform mode, bit 1 (R17, R23). -/
def maskMODE : Word := 0x0002#16

/-- `WAVEMASK` (R17). -/
def waveMask : Word := maskMODE ||| maskOPBITEN ||| maskDIV2

/-- `SHAPEMASK` (R17). -/
def shapeMask : Word := maskB28 ||| maskHLB

/-- Whether the field under a one-bit mask is 1. -/
def fieldSet (ctrl mask : Word) : Bool := ctrl &&& mask != 0#16

/-- `waveBits(shape)` (R88). -/
def waveBits : Wave → Word
  | .sine => 0x0000#16
  | .triangle => maskMODE
  | .squareDiv2 => maskOPBITEN
  | .square => maskOPBITEN ||| maskDIV2

/-- OK (R104). -/
def codeOk : BitVec 3 := 0#3

/-- UNCHANGED (R104). -/
def codeUnchanged : BitVec 3 := 1#3

/-- INVALID_ARG (R104). -/
def codeInvalidArg : BitVec 3 := 2#3

/-- BUS_FAIL (R104). -/
def codeBusFail : BitVec 3 := 3#3

/-- ILLEGAL_CMD (R104). -/
def codeIllegalCmd : BitVec 3 := 4#3

/-- NONE, the power-on value (R30). -/
def codeNone : BitVec 3 := 7#3

end Sys2Proof.Machine
end

