-- ==== Sys2Proof/Machine/Operands.lean ====
section
/-! DEFINITION. Operands: the slots of the shadow and which one is active, the fixed-point encoder from hertz and degrees
(R83 to R87), and the assembly of output words (R79 to R82). -/

namespace Sys2Proof.Machine

/-- `FREQ[i]` (R25). -/
def Shadow.freq (sh : Shadow) : Slot → Freq
  | .s0 => sh.freq0
  | .s1 => sh.freq1

/-- `FREQ[i] <- v`. -/
def Shadow.setFreq (sh : Shadow) (i : Slot) (v : Freq) : Shadow :=
  match i with
  | .s0 => { sh with freq0 := v }
  | .s1 => { sh with freq1 := v }

/-- `PHASE[i]` (R26). -/
def Shadow.phase (sh : Shadow) : Slot → Phase
  | .s0 => sh.phase0
  | .s1 => sh.phase1

/-- `PHASE[i] <- v`. -/
def Shadow.setPhase (sh : Shadow) (i : Slot) (v : Phase) : Shadow :=
  match i with
  | .s0 => { sh with phase0 := v }
  | .s1 => { sh with phase1 := v }

/-- The slot SETFREQ.A targets: `i = CTRL.FSELECT` (R64, R95). -/
def Shadow.activeFreq (sh : Shadow) : Slot :=
  if fieldSet sh.ctrl maskFSELECT then .s1 else .s0

/-- The slot SETPHASE.A targets: `i = CTRL.PSELECT` (R64, R99). -/
def Shadow.activePhase (sh : Shadow) : Slot :=
  if fieldSet sh.ctrl maskPSELECT then .s1 else .s0

/-- `floor(q * n / d)` on exact rationals, for `d > 0`: the numerators and denominators multiplied out, then one integer
division that rounds down (R14; DEDUCED, assumption 13, safe). -/
def scaleFloor (q : Rat) (n d : Int) : Int := (q.num * n) / (q.den * d)

/-- `freqValid(hz)`: `0 <= hz and hz <= MCLK` (R83). -/
def freqValid (m : Clock) (hz : Rat) : Bool := decide (0 ≤ hz ∧ hz ≤ m.hz)

/-- `frequencyToRegister(hz) = min( floor(hz * 2^28 / MCLK), 2^28 - 1 )` (R84). -/
def frequencyToRegister (m : Clock) (hz : Rat) : Freq :=
  BitVec.ofNat 28 (min (scaleFloor hz (268435456 * m.hz.den) m.hz.num).toNat 268435455)

/-- `phaseValid(deg)`: `0 <= deg and deg <= 360` (R85). -/
def phaseValid (deg : Rat) : Bool := decide (0 ≤ deg ∧ deg ≤ 360)

/-- `phaseToRegister(deg) = floor(deg * 4096 / 360) mod 4096` (R86). -/
def phaseToRegister (deg : Rat) : Phase :=
  BitVec.ofNat 12 ((scaleFloor deg 4096 360).toNat % 4096)

/-- `lower14` of `splitFrequency28(v)`: `v & 0x3FFF` (R87). -/
def lower14 (v : Freq) : Half := (v &&& 0x3FFF#28).setWidth 14

/-- `upper14` of `splitFrequency28(v)`: `(v >> 14) & 0x3FFF` (R87). -/
def upper14 (v : Freq) : Half := ((v >>> 14) &&& 0x3FFF#28).setWidth 14

/-- `addressOf(reg)` (R79). -/
def addressOf : Reg → Word
  | .control => 0x0000#16
  | .freq0 => 0x4000#16
  | .freq1 => 0x8000#16
  | .phase0 => 0xC000#16
  | .phase1 => 0xE000#16

/-- FREQ0 or FREQ1. -/
def freqReg : Slot → Reg
  | .s0 => .freq0
  | .s1 => .freq1

/-- PHASE0 or PHASE1. -/
def phaseReg : Slot → Reg
  | .s0 => .phase0
  | .s1 => .phase1

/-- `ctrlWord(c)`: `zext_16(c[13:0]) | addressOf(CONTROL)` (R80). -/
def ctrlWord (c : Word) : Word := (c.extractLsb' 0 14).setWidth 16 ||| addressOf .control

/-- `freqWord(i, h)`: `addressOf(FREQi) | (h & 0x3FFF)` (R81). -/
def freqWord (i : Slot) (h : Half) : Word := addressOf (freqReg i) ||| (h.setWidth 16 &&& 0x3FFF#16)

/-- `phaseWord(i, v)`: `addressOf(PHASEi) | (v & 0x0FFF)` (R82). -/
def phaseWord (i : Slot) (v : Phase) : Word := addressOf (phaseReg i) ||| (v.setWidth 16 &&& 0x0FFF#16)

end Sys2Proof.Machine
end

