-- ==== Sys2Proof/Machine/Chip.lean ====
section
/-! DEFINITION. The reference chip model: what each output word does to the chip's registers (R53 to R58). -/

namespace Sys2Proof.Machine

/-- `chip.CTRL.B28`. -/
def ChipRegs.b28 (c : ChipRegs) : Bool := c.ctrl.getLsbD 13

/-- `chip.CTRL.HLB`. -/
def ChipRegs.hlb (c : ChipRegs) : Bool := c.ctrl.getLsbD 12

/-- `chip.FREQ[i]`. -/
def ChipRegs.freq (c : ChipRegs) : Slot → Freq
  | .s0 => c.freq0
  | .s1 => c.freq1

/-- `chip.FREQ[i] <- v`. -/
def ChipRegs.setFreq (c : ChipRegs) (i : Slot) (v : Freq) : ChipRegs :=
  match i with
  | .s0 => { c with freq0 := v }
  | .s1 => { c with freq1 := v }

/-- `chip.PHASE[i] <- v`. -/
def ChipRegs.setPhase (c : ChipRegs) (i : Slot) (v : Phase) : ChipRegs :=
  match i with
  | .s0 => { c with phase0 := v }
  | .s1 => { c with phase1 := v }

/-- A frequency word that finds no half pending: under B28 it is a lower half (R54), else under HLB it writes the upper half
(R55), else the lower half (R56). -/
def ChipRegs.freshFreq (c : ChipRegs) (i : Slot) (p : Half) : ChipRegs :=
  if c.b28 then { c with pend := some (i, p) }
  else if c.hlb then c.setFreq i (p ++ (c.freq i).extractLsb' 0 14)
  else c.setFreq i ((c.freq i).extractLsb' 14 14 ++ p)

/-- A frequency word (R54 to R56), with the cases R58 (a) and (b) as faults. -/
def ChipRegs.receiveFreq (c : ChipRegs) (i : Slot) (p : Half) : Chip :=
  match c.pend with
  | none => .live (c.freshFreq i p)
  | some (j, lo) =>
    if c.b28 then
      if j = i then .live { c.setFreq i (p ++ lo) with pend := none } else .stopped .otherSlotPending
    else .stopped .pairHalfDone

/-- What a word does to the chip's registers (R53 to R57). -/
def ChipRegs.receive (c : ChipRegs) : OutWord → Chip
  | .control p => .live { c with ctrl := p }
  | .freq i p => c.receiveFreq i p
  | .phase i _ p => .live (c.setPhase i p)

/-- What a word does to the chip: a stopped chip stays stopped. -/
def Chip.receive (ch : Chip) (w : Word) : Chip :=
  match ch with
  | .live c => c.receive (decodeOut w)
  | .stopped f => .stopped f

end Sys2Proof.Machine
end

