-- ==== Sys2Proof/Machine/Ops.lean ====
section
/-! DEFINITION. The named operations over the state: one word transfer (R9), the sequencer (R27, R36), the outcomes a command
ends in (R104 to R108), and the command frame of R11. -/

namespace Sys2Proof

/-- The draw `bus_ok` (R9). -/
def Answer.isOk : Answer → Bool
  | .ok => true
  | .failedLost => false
  | .failedLanded => false

/-- Whether the word reached the chip (R58 (c)). -/
def Answer.lands : Answer → Bool
  | .ok => true
  | .failedLost => false
  | .failedLanded => true

namespace Machine

/-- The transport's answer to the `k`-th word from here. -/
def State.answerAt (s : State) (k : Nat) : Answer := (s.answers[k]?).getD (Config.answer (s.draws + k))

/-- `MemWrite`: one transfer of the word `w`, with the transport's answer (R9, R41). -/
def State.memWrite (w : Word) (s : State) : State :=
  { s with
    answers := s.answers.tail
    draws := s.draws + 1
    trace := s.trace ++ [.write w (s.answerAt 0).isOk]
    chip := if (s.answerAt 0).lands then s.chip.receive w else s.chip }

/-- `SessionBegin` (R46). -/
def State.openSession (s : State) : State := { s with trace := s.trace ++ [.sessionBegin] }

/-- The end of an accepted command: `SessionEnd`, STATUS written, one response, the sequencer idle again (R11, R118). -/
def State.finish (code : BitVec 3) (info : Info) (s : State) : State :=
  { s with
    seq := none
    status := code
    trace := s.trace ++ [.sessionEnd]
    responses := s.responses ++ [⟨code, info⟩] }

/-- Outcome OK: the staged shadow is committed (R11). -/
def State.finishOk (staged : Shadow) (s : State) : State :=
  State.finish codeOk .none { s with shadow := staged }

/-- Outcome BUS_FAIL at word `k`: the staged shadow is discarded and SYNCED cleared (R108). -/
def State.finishBusFail (k : Nat) (s : State) : State :=
  State.finish codeBusFail (.wordIndex k) { s with shadow := { s.shadow with synced := false } }

/-- Outcome INVALID_ARG (R106). -/
def State.finishInvalidArg (value : Rat) (s : State) : State := State.finish codeInvalidArg (.argument value) s

/-- Outcome UNCHANGED (R107). -/
def State.finishUnchanged (s : State) : State := State.finish codeUnchanged .none s

/-- One step of the sequencer (R27): the next word of the list is transferred and the index rises, or the list is at its end
and the command commits, or the word failed and the command stops at once. -/
def State.tick (s : State) : State :=
  match s.seq with
  | none => s
  | some q =>
    match q.words[q.index]? with
    | none => s.finishOk q.staged
    | some w =>
      if (s.answerAt 0).isOk then { s.memWrite w with seq := some { q with index := q.index + 1 } }
      else (s.memWrite w).finishBusFail (q.index + 1)

/-- `n` steps of the sequencer. -/
def State.ticks : Nat → State → State
  | 0, s => s
  | n + 1, s => State.ticks n s.tick

/-- How many steps bring the sequencer to idle at the latest: the words left, and the commit. -/
def Sequencer.ticksLeft (q : Sequencer) : Nat := q.words.length - q.index + 1

/-- The command in progress, if there is one, run to its end (R47, R136). -/
def State.drain (s : State) : State :=
  match s.seq with
  | none => s
  | some q => s.ticks q.ticksLeft

/-- What the body of a command comes to before its first word (R12): an argument refused, a value unchanged, or a word list
with the staged shadow it commits. -/
inductive Body where
  | invalidArg (value : Rat)
  | unchanged
  | writes (words : List Word) (staged : Shadow)
deriving DecidableEq, Repr

/-- An accepted command is loaded into the sequencer: its word list and staged shadow, at step index 0 (R27, R36). -/
def State.load (cmd : Instr) (words : List Word) (staged : Shadow) (s : State) : State :=
  { s with seq := some ⟨cmd, staged, words, 0⟩ }

/-- `Execute(cmd, arg)` for a legal command (R11): one whole command, in one step (D29). A command presented while another runs
is held until that one's `SessionEnd` (R47). That a step ends with the command: assumption 8; that every answer comes: DESIGN CHOICE,
assumption 12, unsafe where a transport can stall. -/
def State.runCommand (cmd : Instr) (body : Shadow → Body) (s : State) : State :=
  match body s.drain.shadow with
  | .invalidArg v => s.drain.openSession.finishInvalidArg v
  | .unchanged => s.drain.openSession.finishUnchanged
  | .writes ws staged => (s.drain.openSession.load cmd ws staged).drain

/-- `Execute(cmd, arg)` for an illegal command: no session, no word, no shadow change (R74, R105). -/
def State.reportIllegal (code : Code) (s : State) : State :=
  { s.drain with
    status := codeIllegalCmd
    responses := s.drain.responses ++ [⟨codeIllegalCmd, .commandCode code⟩] }

/-- A word that reaches the chip by itself (R53 to R57). It is no command: the block reports nothing. A chip that has stopped
takes no more words (R58; DEDUCED, assumption 5, safe). -/
def State.deliver (o : OutWord) (s : State) : Host.Outcome State Fault Refusal :=
  match s.drain.chip with
  | .live c => .next { s.drain with chip := c.receive o }
  | .stopped f => .fault f

end Machine

end Sys2Proof
end

