-- ==== Sys2Proof/Machine/Control.lean ====
section
/-! DEFINITION. TOGGLEF, TOGGLEP and SETWAVE (spec/44_control.md): read-modify-writes of the shadow control word, each with one
control word. -/

namespace Sys2Proof.Machine

/-- `Body(TOGGLEF)` (R100): a true flip of FSELECT. -/
def toggleFBody (sh : Shadow) : Body :=
  .writes [ctrlWord (sh.ctrl ^^^ maskFSELECT)] { sh with ctrl := sh.ctrl ^^^ maskFSELECT }

/-- `Body(TOGGLEP)` (R101): a true flip of PSELECT. -/
def togglePBody (sh : Shadow) : Body :=
  .writes [ctrlWord (sh.ctrl ^^^ maskPSELECT)] { sh with ctrl := sh.ctrl ^^^ maskPSELECT }

/-- The control word SETWAVE transmits: `(CTRL & ~WAVEMASK) | waveBits(W)` (R102). -/
def waveCtrl (ctrl : Word) (shape : Wave) : Word := ctrl &&& ~~~waveMask ||| waveBits shape

/-- `Body(SETWAVE)` (R102): the no-op test reads `WAVE`. -/
def setWaveBody (shape : Wave) (sh : Shadow) : Body :=
  if shape = sh.wave then .unchanged
  else .writes [ctrlWord (waveCtrl sh.ctrl shape)] { sh with ctrl := waveCtrl sh.ctrl shape, wave := shape }

/-- TOGGLEF (R100). -/
def execTogglef (s : State) : Host.Outcome State Fault Refusal := .next (s.runCommand .togglef toggleFBody)

/-- TOGGLEP (R101). -/
def execTogglep (s : State) : Host.Outcome State Fault Refusal := .next (s.runCommand .togglep togglePBody)

/-- SETWAVE (R102). -/
def execSetwave (shape : Wave) (s : State) : Host.Outcome State Fault Refusal :=
  .next (s.runCommand (.setwave shape) (setWaveBody shape))

end Sys2Proof.Machine
end

