-- ==== Sys2Proof/Machine/Frequency.lean ====
section
/-! DEFINITION. SETFREQ and SETFREQ.A (spec/42_frequency.md). -/

namespace Sys2Proof.Machine

/-- `FreqShape(i, v, old, ctrl) -> (c, words)` (R93), defined for `v ≠ old`. -/
def freqShape (i : Slot) (v old : Freq) (ctrl : Word) : Word × List Word :=
  if upper14 v = upper14 old then
    let c := ctrl &&& ~~~shapeMask
    (c, [ctrlWord c, freqWord i (lower14 v)])
  else if lower14 v = lower14 old then
    let c := ctrl &&& ~~~shapeMask ||| maskHLB
    (c, [ctrlWord c, freqWord i (upper14 v)])
  else
    let c := ctrl &&& ~~~shapeMask ||| maskB28
    (c, [ctrlWord c, freqWord i (lower14 v), freqWord i (upper14 v)])

/-- The part of `SetFreqBody` after the encoded value is known: the no-op test and the transaction (R92 steps 2 to 5). -/
def setFreqValue (sh : Shadow) (i : Slot) (v : Freq) : Body :=
  if v = sh.freq i then .unchanged
  else
    let r := freqShape i v (sh.freq i) sh.ctrl
    .writes r.2 ({ sh with ctrl := r.1 }.setFreq i v)

/-- `SetFreqBody(i, hz)` (R92). -/
def setFreqBody (m : Clock) (sh : Shadow) (i : Slot) (hz : Rat) : Body :=
  if freqValid m hz then setFreqValue sh i (frequencyToRegister m hz) else .invalidArg hz

/-- SETFREQ with an explicit slot (R94). -/
def execSetfreq (slot : Slot) (hz : Rat) (s : State) : Host.Outcome State Fault Refusal :=
  .next (s.runCommand (.setfreq slot hz) (fun sh => setFreqBody s.mclk sh slot hz))

/-- SETFREQ.A: the slot is `CTRL.FSELECT`, read once from the shadow (R95). -/
def execSetfreqA (hz : Rat) (s : State) : Host.Outcome State Fault Refusal :=
  .next (s.runCommand (.setfreqA hz) (fun sh => setFreqBody s.mclk sh sh.activeFreq hz))

end Sys2Proof.Machine
end

