-- ==== Sys2Proof/Machine/Init.lean ====
section
/-! DEFINITION. INIT (spec/41_init.md). -/

namespace Sys2Proof.Machine

/-- The two halves cleared for slot `i` after the control word that sets 28-bit mode under RESET (R90). -/
def initSlot (i : Slot) : List Word :=
  [ctrlWord (maskRESET ||| maskB28), freqWord i 0#14, freqWord i 0#14]

/-- The ten words of INIT (R90). -/
def initWords : List Word :=
  [ctrlWord maskRESET] ++ initSlot .s0 ++ initSlot .s1 ++ [phaseWord .s0 0#12, phaseWord .s1 0#12] ++ [ctrlWord 0x0000#16]

/-- What INIT commits: all registers 0, SINE, SYNCED = 1 (R35, R90). -/
def initShadow : Shadow where
  ctrl := 0x0000#16
  freq0 := 0#28
  freq1 := 0#28
  phase0 := 0#12
  phase1 := 0#12
  wave := .sine
  synced := true

/-- `Body(INIT)` (R90): it reads nothing. -/
def initBody (_ : Shadow) : Body := .writes initWords initShadow

/-- INIT (R90). -/
def execInit (s : State) : Host.Outcome State Fault Refusal := .next (s.runCommand .init initBody)

end Sys2Proof.Machine
end

