-- ==== Sys2Proof/Machine/Phase.lean ====
section
/-! DEFINITION. SETPHASE and SETPHASE.A (spec/43_phase.md). -/

namespace Sys2Proof.Machine

/-- The part of `SetPhaseBody` after the encoded value is known: the no-op test and the one write (R97). -/
def setPhaseValue (sh : Shadow) (i : Slot) (v : Phase) : Body :=
  if v = sh.phase i then .unchanged else .writes [phaseWord i v] (sh.setPhase i v)

/-- `SetPhaseBody(i, deg)` (R97). -/
def setPhaseBody (sh : Shadow) (i : Slot) (deg : Rat) : Body :=
  if phaseValid deg then setPhaseValue sh i (phaseToRegister deg) else .invalidArg deg

/-- SETPHASE with an explicit slot (R98). -/
def execSetphase (slot : Slot) (deg : Rat) (s : State) : Host.Outcome State Fault Refusal :=
  .next (s.runCommand (.setphase slot deg) (fun sh => setPhaseBody sh slot deg))

/-- SETPHASE.A: the slot is `CTRL.PSELECT`, read once from the shadow (R99). -/
def execSetphaseA (deg : Rat) (s : State) : Host.Outcome State Fault Refusal :=
  .next (s.runCommand (.setphaseA deg) (fun sh => setPhaseBody sh sh.activePhase deg))

end Sys2Proof.Machine
end

