-- ==== Sys2Proof/Machine/Words.lean ====
section
/-! DEFINITION. The five output words as instructions: what each does to the reference chip model when it arrives
(spec/20_memory.md R53 to R58). That a word can be presented by itself: DESIGN CHOICE, assumption 4, safe. -/

namespace Sys2Proof.Machine

/-- W.CTRL (R53). -/
def execWCtrl (c : Half) (s : State) : Host.Outcome State Fault Refusal := s.deliver (.control c)

/-- W.FREQ0 (R54 to R56, R58). -/
def execWFreq0 (d : Half) (s : State) : Host.Outcome State Fault Refusal := s.deliver (.freq .s0 d)

/-- W.FREQ1 (R54 to R56, R58). -/
def execWFreq1 (d : Half) (s : State) : Host.Outcome State Fault Refusal := s.deliver (.freq .s1 d)

/-- W.PHASE0 (R57): `w[12]` is ignored. -/
def execWPhase0 (x : BitVec 1) (p : Phase) (s : State) : Host.Outcome State Fault Refusal := s.deliver (.phase .s0 x p)

/-- W.PHASE1 (R57): `w[12]` is ignored. -/
def execWPhase1 (x : BitVec 1) (p : Phase) (s : State) : Host.Outcome State Fault Refusal := s.deliver (.phase .s1 x p)

end Sys2Proof.Machine
end

