-- ==== Sys2Proof/Machine/Dispatch.lean ====
section
/-! DEFINITION. One arm per constructor of `Instr`. -/

namespace Sys2Proof.Machine

def exec (i : Instr) (s : State) : Host.Outcome State Fault Refusal :=
  match i with
  | .init => Sys2Proof.Machine.execInit s
  | .setfreq slot hz => Sys2Proof.Machine.execSetfreq slot hz s
  | .setfreqA hz => Sys2Proof.Machine.execSetfreqA hz s
  | .setphase slot deg => Sys2Proof.Machine.execSetphase slot deg s
  | .setphaseA deg => Sys2Proof.Machine.execSetphaseA deg s
  | .togglef => Sys2Proof.Machine.execTogglef s
  | .togglep => Sys2Proof.Machine.execTogglep s
  | .setwave shape => Sys2Proof.Machine.execSetwave shape s
  | .wCtrl c => Sys2Proof.Machine.execWCtrl c s
  | .wFreq0 d => Sys2Proof.Machine.execWFreq0 d s
  | .wFreq1 d => Sys2Proof.Machine.execWFreq1 d s
  | .wPhase0 x p => Sys2Proof.Machine.execWPhase0 x p s
  | .wPhase1 x p => Sys2Proof.Machine.execWPhase1 x p s

end Sys2Proof.Machine
end

