-- ==== Sys2Proof/Machine/Step.lean ====
section
/-! DEFINITION. One step of the machine: the next thing presented is taken and run; with nothing presented the block waits. -/

namespace Sys2Proof.Machine

/-- Runs what was taken from the port: an instruction, or the report of an illegal command (R11). -/
def State.runInput (inp : Input) (s : State) : Host.Outcome State Fault Refusal :=
  match inp with
  | .cmd c arg =>
    match decodeCmd c arg with
    | .ok i => exec i s
    | .error _ => .next (s.reportIllegal c)
  | .word w => exec (decodeOut w).instr s

/-- One step. The block takes what is at the port (R118), or, with nothing there, finishes what it is doing and waits. -/
def step (s : State) : Host.Outcome State Fault Refusal :=
  match s.inputs with
  | [] => .next s.drain
  | inp :: rest => { s with inputs := rest }.runInput inp

/-- `s` with the instruction of `nbits` bits and value `w` presented as the next thing the step takes, its argument zero. -/
def State.withFetchWord (s : State) (nbits w : Nat) : State :=
  match Input.ofTable nbits w with
  | some inp => { s with inputs := inp :: s.inputs }
  | none => s

end Sys2Proof.Machine
end

