-- ==== Sys2Proof/Machine/Assembly.lean ====
section
/-! DEFINITION. The textual form of a command (R76): one command a line, `;` starting a comment, mnemonics in either case.
What R76 leaves to the reader, the blanks among it: DEDUCED, assumption 15, safe. -/

namespace Sys2Proof.Machine

/-- A decimal digit's value. -/
def Asm.digit (c : Char) : Option Nat := if '0' ≤ c ∧ c ≤ '9' then some (c.toNat - 48) else none

/-- Digits read onto a value so far. -/
def Asm.digits : Nat → List Char → Option Nat
  | acc, [] => some acc
  | acc, c :: cs =>
    match Asm.digit c with
    | some d => Asm.digits (acc * 10 + d) cs
    | none => none

/-- One or more digits. -/
def Asm.natural : List Char → Option Nat
  | [] => none
  | c :: cs => Asm.digits 0 (c :: cs)

/-- The part of a token before the first `c`, and the part after it if there is one. -/
def Asm.splitAt (c : Char) : List Char → List Char × Option (List Char)
  | [] => ([], none)
  | d :: ds =>
    if d = c then ([], some ds)
    else
      let r := Asm.splitAt c ds
      (d :: r.1, r.2)

/-- A number without its sign, as numerator and denominator: `digits`, `digits.digits`, or `p/q` with `q` not zero (R76). -/
def Asm.magnitude (cs : List Char) : Option (Nat × Nat) :=
  match Asm.splitAt '/' cs with
  | (p, some q) =>
    match Asm.natural p, Asm.natural q with
    | some n, some d => if d = 0 then none else some (n, d)
    | _, _ => none
  | (_, none) =>
    match Asm.splitAt '.' cs with
    | (i, some f) =>
      match Asm.natural i, Asm.natural f with
      | some n, some m => some (n * 10 ^ f.length + m, 10 ^ f.length)
      | _, _ => none
    | (_, none) => (Asm.natural cs).map (fun n => (n, 1))

/-- `<num>` of R76: an optional `-` and a magnitude, as an exact rational. -/
def Asm.number : List Char → Option Rat
  | '-' :: cs => (Asm.magnitude cs).map (fun m => mkRat (-m.1) m.2)
  | cs => (Asm.magnitude cs).map (fun m => mkRat m.1 m.2)

/-- The tokens of a line: runs of characters between blanks, a comma being a token of its own. `cur` is the token being read. -/
def Asm.tokens (cur : List Char) : List Char → List (List Char)
  | [] => if cur = [] then [] else [cur]
  | c :: cs =>
    if c = ' ' ∨ c = '\t' then (if cur = [] then Asm.tokens [] cs else cur :: Asm.tokens [] cs)
    else if c = ',' then (if cur = [] then [','] :: Asm.tokens [] cs else cur :: [','] :: Asm.tokens [] cs)
    else Asm.tokens (cur ++ [c]) cs

/-- A line's tokens in lower case, its comment left out. -/
def Asm.lineTokens (line : List Char) : List (List Char) :=
  Asm.tokens [] ((line.takeWhile (fun c => c != ';')).map Char.toLower)

/-- The shape a SETWAVE operand names. -/
def Asm.shape (t : List Char) : Option Wave :=
  if t = "sine".toList then some .sine
  else if t = "triangle".toList then some .triangle
  else if t = "square_div2".toList then some .squareDiv2
  else if t = "square".toList then some .square
  else none

/-- A register operand: `f0`, `f1` (or `p0`, `p1`), by its letter. -/
def Asm.register (letter : Char) (t : List Char) : Option Slot :=
  if t = [letter, '0'] then some .s0 else if t = [letter, '1'] then some .s1 else none

/-- One line of assembly (R76); `none` where it is no command. -/
def Asm.assemble (line : List Char) : Option Instr :=
  match Asm.lineTokens line with
  | [m] =>
    if m = "init".toList then some .init
    else if m = "togglef".toList then some .togglef
    else if m = "togglep".toList then some .togglep
    else none
  | [m, a] =>
    if m = "setfreq".toList then (Asm.number a).map .setfreqA
    else if m = "setphase".toList then (Asm.number a).map .setphaseA
    else if m = "setwave".toList then (Asm.shape a).map .setwave
    else none
  | [m, r, [','], a] =>
    if m = "setfreq".toList then
      match Asm.register 'f' r, Asm.number a with
      | some i, some q => some (.setfreq i q)
      | _, _ => none
    else if m = "setphase".toList then
      match Asm.register 'p' r, Asm.number a with
      | some i, some q => some (.setphase i q)
      | _, _ => none
    else none
  | _ => none

end Sys2Proof.Machine
end

