-- ==== Sys2Proof/Machine/Platform.lean ====
section
/-! DEFINITION. Several blocks beside one another, each with its own shadow and its own chip (R60, R120). One command is one
step of its block, so the sessions of two blocks never overlap (R47, R120; DESIGN CHOICE, assumption 16, unsafe where a
platform lets them overlap). -/

namespace Sys2Proof.Machine

/-- One step of block `k`: it takes its next command, and the other blocks keep their state. -/
def Platform.stepAt (blocks : List State) (k : Nat) : Host.Outcome (List State) Fault Refusal :=
  match blocks[k]? with
  | none => .next blocks
  | some s =>
    match step s with
    | .next t => .next (blocks.set k t)
    | .fault f => .fault f
    | .refused r => .refused r

end Sys2Proof.Machine
end

