-- ==== Sys2Proof/Safety.lean ====
section
/-! DEFINITION. The terms the statements use: what each outcome of a command leaves (written out field by field from R11 and
R104, not through the operations of Machine/Ops.lean; the sequencer ends idle), what a command in progress comes to (R27, R108),
the invariants of R31, R32, R30 and R46, the words R72 excludes, the coherence of R59, and the texts of `<num>` (R76). -/

namespace Sys2Proof

/-- The commands, as against the output words (R63). -/
def Instr.isCommand : Instr → Bool
  | .init => true
  | .setfreq _ _ => true
  | .setfreqA _ => true
  | .setphase _ _ => true
  | .setphaseA _ => true
  | .togglef => true
  | .togglep => true
  | .setwave _ => true
  | .wCtrl _ => false
  | .wFreq0 _ => false
  | .wFreq1 _ => false
  | .wPhase0 _ _ => false
  | .wPhase1 _ _ => false

namespace Machine

/-- The sequencer is idle (R36). -/
abbrev State.Idle (s : State) : Prop := s.seq = none

/-- The next `n` words all succeed: the premise R10 asks a claim to state. -/
abbrev State.AllOk (s : State) (n : Nat) : Prop := ∀ k, k < n → (s.answerAt k).isOk = true

/-- The event list of a command whose words all succeeded (R13). -/
def okEvents (ws : List Word) : List Event :=
  [.sessionBegin] ++ ws.map (fun w => .write w true) ++ [.sessionEnd]

/-- The event list of a command whose word `w` failed after the words `sent` (R13, R108). -/
def failEvents (sent : List Word) (w : Word) : List Event :=
  [.sessionBegin] ++ sent.map (fun v => .write v true) ++ [.write w false, .sessionEnd]

/-- Outcome OK after the words `ws`, committing `sh` (R11, R104). Every field not named is as before. -/
def State.okAfter (s : State) (ws : List Word) (sh : Shadow) : State :=
  { s with
    shadow := sh
    status := 0#3
    seq := none
    chip := ws.foldl Chip.receive s.chip
    answers := s.answers.drop ws.length
    draws := s.draws + ws.length
    trace := s.trace ++ okEvents ws
    responses := s.responses ++ [⟨0#3, .none⟩] }

/-- Outcome BUS_FAIL at the word `w`, after the words `sent` succeeded (R104, R108): the shadow keeps every field but SYNCED, and
the failed word reached the chip or not (R58 (c)). Every field not named is as before. -/
def State.busFailAfter (s : State) (sent : List Word) (w : Word) : State :=
  { s with
    shadow := { s.shadow with synced := false }
    status := 3#3
    seq := none
    chip :=
      if (s.answerAt sent.length).lands then (sent.foldl Chip.receive s.chip).receive w
      else sent.foldl Chip.receive s.chip
    answers := s.answers.drop (sent.length + 1)
    draws := s.draws + (sent.length + 1)
    trace := s.trace ++ failEvents sent w
    responses := s.responses ++ [⟨3#3, .wordIndex (sent.length + 1)⟩] }

/-- What the command in progress `q` comes to where its words from the step index on, `rest`, all succeed: they are transferred in
order, the staged shadow is committed and the session closed (R11, R27). Every field not named is as before. -/
def State.resumedOk (s : State) (q : Sequencer) (rest : List Word) : State :=
  { s with
    shadow := q.staged
    status := 0#3
    seq := none
    chip := rest.foldl Chip.receive s.chip
    answers := s.answers.drop rest.length
    draws := s.draws + rest.length
    trace := s.trace ++ rest.map (fun w => .write w true) ++ [.sessionEnd]
    responses := s.responses ++ [⟨0#3, .none⟩] }

/-- What the command in progress `q` comes to where of its words from the step index on `sent` succeed and then `w` fails: it stops
there with BUS_FAIL, the word counted in the whole list, and the session is closed (R11, R108). Every field not named is as before. -/
def State.resumedFail (s : State) (q : Sequencer) (sent : List Word) (w : Word) : State :=
  { s with
    shadow := { s.shadow with synced := false }
    status := 3#3
    seq := none
    chip :=
      if (s.answerAt sent.length).lands then (sent.foldl Chip.receive s.chip).receive w
      else sent.foldl Chip.receive s.chip
    answers := s.answers.drop (sent.length + 1)
    draws := s.draws + (sent.length + 1)
    trace := s.trace ++ sent.map (fun v => .write v true) ++ [.write w false, .sessionEnd]
    responses := s.responses ++ [⟨3#3, .wordIndex (q.index + sent.length + 1)⟩] }

/-- Outcome UNCHANGED (R104, R107): a session without a word. Every field not named is as before. -/
def State.unchangedAfter (s : State) : State :=
  { s with
    status := 1#3
    seq := none
    trace := s.trace ++ [.sessionBegin, .sessionEnd]
    responses := s.responses ++ [⟨1#3, .none⟩] }

/-- Outcome INVALID_ARG (R104, R106): a session without a word. Every field not named is as before. -/
def State.invalidAfter (s : State) (value : Rat) : State :=
  { s with
    status := 2#3
    seq := none
    trace := s.trace ++ [.sessionBegin, .sessionEnd]
    responses := s.responses ++ [⟨2#3, .argument value⟩] }

/-- Outcome ILLEGAL_CMD (R104, R105): no session. Every field not named is as before. -/
def State.illegalAfter (s : State) (code : Code) : State :=
  { s with
    status := 4#3
    responses := s.responses ++ [⟨4#3, .commandCode code⟩] }

/-- Control-word shape: `CTRL & 0xC3D5 == 0` (R32). -/
abbrev Shadow.CtrlShape (sh : Shadow) : Prop := sh.ctrl &&& 0xC3D5#16 = 0#16

/-- Waveform coherence: `CTRL & WAVEMASK == waveBits(WAVE)` (R31), the mask and the patterns as R17 and R88 give them. -/
abbrev Shadow.WaveCoherent (sh : Shadow) : Prop :=
  sh.ctrl &&& 0x002A#16 =
    match sh.wave with
    | .sine => 0x0000#16
    | .triangle => 0x0002#16
    | .squareDiv2 => 0x0020#16
    | .square => 0x0028#16

/-- What every reachable state satisfies between commands: the sequencer idle (R36), R31, R32, and a STATUS that is never 5 or 6
(R30). -/
structure State.Inv (s : State) : Prop where
  idle : s.Idle
  shape : s.shadow.CtrlShape
  wave : s.shadow.WaveCoherent
  status : s.status ≠ 5#3 ∧ s.status ≠ 6#3

/-- Whether a trace, read from the left, brackets every word in a session and neither nests nor leaves open a session (R46):
`within` says whether a session is open. -/
def bracketed : Bool → List Event → Bool
  | within, [] => !within
  | within, .sessionBegin :: es => !within && bracketed true es
  | within, .write _ _ :: es => within && bracketed true es
  | within, .sessionEnd :: es => within && bracketed false es

/-- A word the block may emit outside INIT (R72): no control word with a bit of 9, 8, 7, 6, 4, 2, 0 set, and no phase word with
bit 12 set. -/
def emittable (w : Word) : Bool :=
  if w.extractLsb' 14 2 = 0b00#2 then w &&& 0x03D5#16 == 0#16
  else if w.extractLsb' 14 2 = 0b11#2 then w &&& 0x1000#16 == 0#16
  else true

/-- A word the block may emit at all (R72): as `emittable`, but a control word may have `RESET` (bit 8) set. -/
def emittableInit (w : Word) : Bool :=
  if w.extractLsb' 14 2 = 0b00#2 then w &&& 0x02D5#16 == 0#16
  else if w.extractLsb' 14 2 = 0b11#2 then w &&& 0x1000#16 == 0#16
  else true

/-- The words of an event list. -/
def wordsOf : List Event → List Word
  | [] => []
  | .write w _ :: es => w :: wordsOf es
  | .sessionBegin :: es => wordsOf es
  | .sessionEnd :: es => wordsOf es

/-- `Coherent(shadow, chip)` (R59). -/
def State.Coherent (s : State) : Prop :=
  ∃ c, s.chip = .live c ∧ c.ctrl = s.shadow.ctrl.extractLsb' 0 14 ∧ c.freq0 = s.shadow.freq0 ∧
    c.freq1 = s.shadow.freq1 ∧ c.phase0 = s.shadow.phase0 ∧ c.phase1 = s.shadow.phase1 ∧ c.pend = none

/-- The decimal digits `ds` as text, the most significant first. -/
def digitChars (ds : List (Fin 10)) : List Char := ds.map (fun d => Char.ofNat (48 + d.val))

/-- The number the decimal digits `ds` write. -/
def decimal (ds : List (Fin 10)) : Nat := ds.foldl (fun v d => 10 * v + d.val) 0

/-- The texts of `<num>` without its sign, each with its value (R76): digits, digits with a fraction, or `p/q`. -/
inductive IsMagnitude : List Char → Rat → Prop where
  | whole (is : List (Fin 10)) : is ≠ [] → IsMagnitude (digitChars is) (decimal is)
  | fraction (is fs : List (Fin 10)) : is ≠ [] → fs ≠ [] →
      IsMagnitude (digitChars is ++ '.' :: digitChars fs) (decimal is + decimal fs / 10 ^ fs.length)
  | ratio (ps qs : List (Fin 10)) : ps ≠ [] → qs ≠ [] → decimal qs ≠ 0 →
      IsMagnitude (digitChars ps ++ '/' :: digitChars qs) (decimal ps / decimal qs)

/-- `<num>` (R76): an optional `-` and a magnitude. -/
inductive IsNumber : List Char → Rat → Prop where
  | plain (t : List Char) (q : Rat) : IsMagnitude t q → IsNumber t q
  | minus (t : List Char) (q : Rat) : IsMagnitude t q → IsNumber ('-' :: t) (-q)

/-- `n` blanks. -/
def blanks (n : Nat) : List Char := List.replicate n ' '

end Machine

end Sys2Proof
end

