-- ==== Sys2Proof/Certificates/Slice0/Obligations.lean ====
section
/-! DEFINITION. The statements for the provers. `Idle`, `AllOk`, `okAfter`, `busFailAfter`, `unchangedAfter`, `invalidAfter`,
`illegalAfter`, `Inv`, `bracketed`, `emittable`, `Coherent` are those of Sys2Proof/Safety.lean: a statement that gives the whole next
state by one of them says the instruction's effect and its frame at once. -/

open Sys2Proof Sys2Proof.Machine

/-! ### Power-on, one step, the configuration -/

/-- R34: the state after power-on. -/
def Obligations.PowerOnState : Prop :=
  State.reset.shadow.ctrl = 0x0000#16 ∧ State.reset.shadow.freq0 = 0#28 ∧ State.reset.shadow.freq1 = 0#28 ∧
  State.reset.shadow.phase0 = 0#12 ∧ State.reset.shadow.phase1 = 0#12 ∧ State.reset.shadow.wave = .sine ∧
  State.reset.shadow.synced = false ∧ State.reset.status = 7#3 ∧ State.reset.seq = none ∧ State.reset.trace = [] ∧
  State.reset.responses = []

/-- The step takes what is presented first and, where it decodes, runs exactly that instruction, with nothing around it but
that the port has given it up. That what is presented waits in a list is the model's choice (assumption 6). -/
def Obligations.StepRunsDecoded : Prop :=
  ∀ (s : State) (inp : Input) (rest : List Input) (i : Instr),
    s.inputs = inp :: rest → decode inp = .ok i → step s = exec i { s with inputs := rest }

/-- R105: a command whose code is not legal is reported without a session, a word or a shadow change; every other command opens
its session first. -/
def Obligations.StepReportsIllegal : Prop :=
  (∀ (s : State) (c : Code) (arg : Rat) (rest : List Input),
    s.Idle → s.inputs = .cmd c arg :: rest → legal c = false →
      step s = .next ({ s with inputs := rest }.illegalAfter c)) ∧
  ∀ (s t : State) (i : Instr), s.Idle → i.isCommand = true → exec i s = .next t →
    ∃ es, t.trace = s.trace ++ .sessionBegin :: es

/-- With nothing presented, an idle block keeps all its state. That there is such a step is the model's form (assumption 6). -/
def Obligations.IdleStepWaits : Prop :=
  ∀ s : State, s.Idle → s.inputs = [] → step s = .next s

/-- The configuration is no state: no step changes `MCLK`. That it is carried in State is the model's choice (assumption 1). -/
def Obligations.ClockNeverWritten : Prop :=
  ∀ s t : State, step s = .next t → t.mclk = s.mclk

/-- A configuration is one exactly where its clock is positive; zero and negative clocks are refused. -/
def Obligations.ClockMustBePositive : Prop :=
  ∀ q : Rat, ((∃ m, Clock.make q = some m ∧ m.hz = q) ↔ 0 < q) ∧ (Clock.make q = none ↔ q ≤ 0)

/-! ### Encodings -/

/-- Decoding an encoded instruction gives it back, every operand at every value. -/
def Obligations.DecodeEncode : Prop :=
  ∀ i : Instr, decode (encode i) = .ok i

/-- Whatever decodes is encoded as it came, its argument apart where the instruction ignores it: encoding an
ignored argument as 0 is the model's choice (assumption 7). -/
def Obligations.EncodeDecode : Prop :=
  (∀ (w : Word) (i : Instr), decode (.word w) = .ok i → encode i = .word w) ∧
  ∀ (c : Code) (arg : Rat) (i : Instr), decode (.cmd c arg) = .ok i →
    encode i = .cmd c arg ∨ (encode i = .cmd c 0 ∧ ∀ a : Rat, decode (.cmd c a) = .ok i)

/-- R66: exactly the 13 listed codes are legal, `Legal` is the rule's case distinction, and the decoder accepts a command
exactly when its code is legal. -/
def Obligations.LegalCodes : Prop :=
  (∀ c : Code, legal c = true ↔
    c ∈ [0x10#8, 0x20#8, 0x28#8, 0x2C#8, 0x30#8, 0x38#8, 0x3C#8, 0x40#8, 0x50#8, 0x60#8, 0x61#8, 0x62#8, 0x63#8]) ∧
  (∀ c : Code, legal c =
    match c.toNat / 16 with
    | 1 | 4 | 5 => c.toNat % 16 == 0
    | 2 | 3 => c.toNat % 4 == 0 && (c.getLsbD 3 || !c.getLsbD 2)
    | 6 => !c.getLsbD 3 && !c.getLsbD 2
    | _ => false) ∧
  ∀ (c : Code) (arg : Rat), (∃ i, decodeCmd c arg = .ok i) ↔ legal c = true

/-- Words written out bit by bit from R78 decode to the instructions they stand for. -/
def Obligations.DecodedWords : Prop :=
  decodeCmd 0b00010000#8 3 = .ok .init ∧ decodeCmd 0b00101100#8 3 = .ok (.setfreq .s1 3) ∧
  decodeCmd 0b00100000#8 3 = .ok (.setfreqA 3) ∧ decodeCmd 0b00111000#8 3 = .ok (.setphase .s0 3) ∧
  decodeCmd 0b00110000#8 3 = .ok (.setphaseA 3) ∧ decodeCmd 0b01000000#8 3 = .ok .togglef ∧
  decodeCmd 0b01010000#8 3 = .ok .togglep ∧ decodeCmd 0b01100010#8 3 = .ok (.setwave .squareDiv2) ∧
  decode (.word 0b0010000100000000#16) = .ok (.wCtrl 0b10000100000000#14) ∧
  decode (.word 0b0110100111110001#16) = .ok (.wFreq0 0b10100111110001#14) ∧
  decode (.word 0b1011111111111111#16) = .ok (.wFreq1 0b11111111111111#14) ∧
  decode (.word 0b1100010000000000#16) = .ok (.wPhase0 0b0#1 0b010000000000#12) ∧
  decode (.word 0b1111000100100011#16) = .ok (.wPhase1 0b1#1 0b000100100011#12)

/-- R73: decoding an output word is total, by the word's value; the payload is the value less the tag. -/
def Obligations.OutWordDecoding : Prop :=
  ∀ w : Word,
    match decodeOut w with
    | .control c => w.toNat < 0x4000 ∧ (decodeOut w).reg = .control ∧ c.toNat = w.toNat
    | .freq .s0 d => 0x4000 ≤ w.toNat ∧ w.toNat < 0x8000 ∧ (decodeOut w).reg = .freq0 ∧ d.toNat = w.toNat - 0x4000
    | .freq .s1 d => 0x8000 ≤ w.toNat ∧ w.toNat < 0xC000 ∧ (decodeOut w).reg = .freq1 ∧ d.toNat = w.toNat - 0x8000
    | .phase .s0 _ p => 0xC000 ≤ w.toNat ∧ w.toNat < 0xE000 ∧ (decodeOut w).reg = .phase0 ∧ p.toNat = w.toNat % 0x1000
    | .phase .s1 _ p => 0xE000 ≤ w.toNat ∧ (decodeOut w).reg = .phase1 ∧ p.toNat = w.toNat % 0x1000

/-- R79 to R82: the value of every assembled word. -/
def Obligations.WordAssembly : Prop :=
  (addressOf .control = 0x0000#16 ∧ addressOf .freq0 = 0x4000#16 ∧ addressOf .freq1 = 0x8000#16 ∧
    addressOf .phase0 = 0xC000#16 ∧ addressOf .phase1 = 0xE000#16) ∧
  (∀ c : Word, (ctrlWord c).toNat = c.toNat % 0x4000) ∧
  (∀ h : Half, (freqWord .s0 h).toNat = 0x4000 + h.toNat ∧ (freqWord .s1 h).toNat = 0x8000 + h.toNat) ∧
  ∀ v : Phase, (phaseWord .s0 v).toNat = 0xC000 + v.toNat ∧ (phaseWord .s1 v).toNat = 0xE000 + v.toNat

/-- Every assembled word is decoded by the chip as the register and the payload it was assembled from. -/
def Obligations.WordsCarryTheirTag : Prop :=
  (∀ c : Word, decodeOut (ctrlWord c) = .control (c.extractLsb' 0 14)) ∧
  (∀ (i : Slot) (h : Half), decodeOut (freqWord i h) = .freq i h) ∧
  ∀ (i : Slot) (v : Phase), decodeOut (phaseWord i v) = .phase i 0#1 v

/-! ### The encoder from hertz and degrees -/

/-- R83 and R84: a valid frequency, and its register value as the exact rational quotient rounded down and saturated. -/
def Obligations.FrequencyIsFloor : Prop :=
  ∀ (m : Clock) (hz : Rat),
    (freqValid m hz = true ↔ 0 ≤ hz ∧ hz ≤ m.hz) ∧
    (0 ≤ hz → hz ≤ m.hz → ((frequencyToRegister m hz).toNat : Int) = min ⌊hz * 2 ^ 28 / m.hz⌋ (2 ^ 28 - 1))

/-- R85 and R86: a valid phase, and its register value as the exact rational quotient rounded down, modulo 4096. -/
def Obligations.PhaseIsFloor : Prop :=
  ∀ deg : Rat,
    (phaseValid deg = true ↔ 0 ≤ deg ∧ deg ≤ 360) ∧
    (0 ≤ deg → deg ≤ 360 → ((phaseToRegister deg).toNat : Int) = ⌊deg * 4096 / 360⌋ % 4096)

/-- The frequency encoder never falls on `[0, MCLK]`, and its end points. -/
def Obligations.FrequencyMonotone : Prop :=
  ∀ m : Clock,
    frequencyToRegister m 0 = 0#28 ∧ frequencyToRegister m m.hz = 0xFFFFFFF#28 ∧
    ∀ a b : Rat, 0 ≤ a → a ≤ b → b ≤ m.hz → frequencyToRegister m a ≤ frequencyToRegister m b

/-- The phase encoder never falls on `[0, 360)`, and 360 is 0 again. -/
def Obligations.PhaseMonotone : Prop :=
  phaseToRegister 0 = 0#12 ∧ phaseToRegister 360 = 0#12 ∧
  ∀ a b : Rat, 0 ≤ a → a ≤ b → b < 360 → phaseToRegister a ≤ phaseToRegister b

/-- R87: the two halves as values, and their recombination. -/
def Obligations.SplitRecombines : Prop :=
  ∀ v : Freq, (lower14 v).toNat = v.toNat % 2 ^ 14 ∧ (upper14 v).toNat = v.toNat / 2 ^ 14 ∧ upper14 v ++ lower14 v = v

/-! ### INIT -/

/-- R90: INIT, its encoding with `ARG` ignored, its ten words, what it commits, and its failure at any word. -/
def Obligations.InitRule : Prop :=
  (∀ arg : Rat, decodeCmd 0x10#8 arg = .ok .init) ∧
  (∀ s : State, s.Idle → s.AllOk 10 →
    exec .init s = .next (s.okAfter
      [0x0100#16, 0x2100#16, 0x4000#16, 0x4000#16, 0x2100#16, 0x8000#16, 0x8000#16, 0xC000#16, 0xE000#16, 0x0000#16]
      { ctrl := 0x0000#16, freq0 := 0#28, freq1 := 0#28, phase0 := 0#12, phase1 := 0#12, wave := .sine, synced := true })) ∧
  ∀ (s : State) (sent later : List Word) (w : Word), s.Idle →
    [0x0100#16, 0x2100#16, 0x4000#16, 0x4000#16, 0x2100#16, 0x8000#16, 0x8000#16, 0xC000#16, 0xE000#16, 0x0000#16] =
      sent ++ w :: later →
    s.AllOk sent.length → (s.answerAt sent.length).isOk = false →
    exec .init s = .next (s.busFailAfter sent w)

/-! ### SETFREQ and SETFREQ.A -/

/-- R93: the transaction shape, defined for `v ≠ old`, with the fields written out as bits. -/
def Obligations.TransactionShape : Prop :=
  ∀ (i : Slot) (v old : Freq) (ctrl : Word), v ≠ old →
    freqShape i v old ctrl =
      if v.extractLsb' 14 14 = old.extractLsb' 14 14 then
        (ctrl &&& 0xCFFF#16, [ctrlWord (ctrl &&& 0xCFFF#16), freqWord i (v.extractLsb' 0 14)])
      else if v.extractLsb' 0 14 = old.extractLsb' 0 14 then
        (ctrl &&& 0xCFFF#16 ||| 0x1000#16, [ctrlWord (ctrl &&& 0xCFFF#16 ||| 0x1000#16), freqWord i (v.extractLsb' 14 14)])
      else
        (ctrl &&& 0xCFFF#16 ||| 0x2000#16,
          [ctrlWord (ctrl &&& 0xCFFF#16 ||| 0x2000#16), freqWord i (v.extractLsb' 0 14), freqWord i (v.extractLsb' 14 14)])

/-- SETFREQ to a slot, or SETFREQ.A with that slot active, whose value differs from the register in the lower half only: two
words, B28 = HLB = 0. -/
def Obligations.SetfreqLowerOnly : Prop :=
  ∀ (s : State) (i : Instr) (slot : Slot) (hz : Rat) (v : Freq) (c : Word),
    i = .setfreq slot hz ∨ (i = .setfreqA hz ∧ slot = if s.shadow.ctrl.getLsbD 11 then .s1 else .s0) →
    s.Idle → s.AllOk 2 → 0 ≤ hz → hz ≤ s.mclk.hz → v = frequencyToRegister s.mclk hz → v ≠ s.shadow.freq slot →
    v.extractLsb' 14 14 = (s.shadow.freq slot).extractLsb' 14 14 → c = s.shadow.ctrl &&& 0xCFFF#16 →
    exec i s = .next (s.okAfter [ctrlWord c, freqWord slot (v.extractLsb' 0 14)] ({ s.shadow with ctrl := c }.setFreq slot v))

/-- The same where the value differs in the upper half only: two words, HLB = 1 and B28 = 0. -/
def Obligations.SetfreqUpperOnly : Prop :=
  ∀ (s : State) (i : Instr) (slot : Slot) (hz : Rat) (v : Freq) (c : Word),
    i = .setfreq slot hz ∨ (i = .setfreqA hz ∧ slot = if s.shadow.ctrl.getLsbD 11 then .s1 else .s0) →
    s.Idle → s.AllOk 2 → 0 ≤ hz → hz ≤ s.mclk.hz → v = frequencyToRegister s.mclk hz → v ≠ s.shadow.freq slot →
    v.extractLsb' 0 14 = (s.shadow.freq slot).extractLsb' 0 14 → c = s.shadow.ctrl &&& 0xCFFF#16 ||| 0x1000#16 →
    exec i s = .next (s.okAfter [ctrlWord c, freqWord slot (v.extractLsb' 14 14)] ({ s.shadow with ctrl := c }.setFreq slot v))

/-- The same where both halves differ: three words, the lower half before the upper, B28 = 1 and HLB = 0. -/
def Obligations.SetfreqFull : Prop :=
  ∀ (s : State) (i : Instr) (slot : Slot) (hz : Rat) (v : Freq) (c : Word),
    i = .setfreq slot hz ∨ (i = .setfreqA hz ∧ slot = if s.shadow.ctrl.getLsbD 11 then .s1 else .s0) →
    s.Idle → s.AllOk 3 → 0 ≤ hz → hz ≤ s.mclk.hz → v = frequencyToRegister s.mclk hz →
    v.extractLsb' 14 14 ≠ (s.shadow.freq slot).extractLsb' 14 14 →
    v.extractLsb' 0 14 ≠ (s.shadow.freq slot).extractLsb' 0 14 → c = s.shadow.ctrl &&& 0xCFFF#16 ||| 0x2000#16 →
    exec i s = .next (s.okAfter
      [ctrlWord c, freqWord slot (v.extractLsb' 0 14), freqWord slot (v.extractLsb' 14 14)]
      ({ s.shadow with ctrl := c }.setFreq slot v))

/-- R77: an active form is the explicit form on the slot the select bit names when the command runs. -/
def Obligations.ActiveFormsResolve : Prop :=
  ∀ (s : State) (q : Rat), s.Idle →
    exec (.setfreqA q) s = exec (.setfreq (if s.shadow.ctrl.getLsbD 11 then .s1 else .s0) q) s ∧
    exec (.setphaseA q) s = exec (.setphase (if s.shadow.ctrl.getLsbD 10 then .s1 else .s0) q) s

/-! ### SETPHASE and SETPHASE.A -/

/-- SETPHASE to a slot, or SETPHASE.A with that slot active, whose value differs from the register: one word, and neither form
touches `CTRL`. -/
def Obligations.SetphaseWrites : Prop :=
  ∀ (s : State) (i : Instr) (slot : Slot) (deg : Rat) (v : Phase),
    i = .setphase slot deg ∨ (i = .setphaseA deg ∧ slot = if s.shadow.ctrl.getLsbD 10 then .s1 else .s0) →
    s.Idle → 0 ≤ deg → deg ≤ 360 → v = phaseToRegister deg → v ≠ s.shadow.phase slot →
    (s.AllOk 1 → exec i s = .next (s.okAfter [phaseWord slot v] (s.shadow.setPhase slot v))) ∧
    ((s.answerAt 0).isOk = false → exec i s = .next (s.busFailAfter [] (phaseWord slot v)))

/-! ### TOGGLEF, TOGGLEP, SETWAVE -/

/-- R100: TOGGLEF, its encoding, its one word, and its failure. -/
def Obligations.TogglefRule : Prop :=
  (∀ arg : Rat, decodeCmd 0x40#8 arg = .ok .togglef) ∧
  ∀ (s : State) (c : Word), s.Idle → c = s.shadow.ctrl ^^^ 0x0800#16 →
    (s.AllOk 1 → exec .togglef s = .next (s.okAfter [ctrlWord c] { s.shadow with ctrl := c })) ∧
    ((s.answerAt 0).isOk = false → exec .togglef s = .next (s.busFailAfter [] (ctrlWord c)))

/-- R101: TOGGLEP, its encoding, its one word, and its failure. -/
def Obligations.TogglepRule : Prop :=
  (∀ arg : Rat, decodeCmd 0x50#8 arg = .ok .togglep) ∧
  ∀ (s : State) (c : Word), s.Idle → c = s.shadow.ctrl ^^^ 0x0400#16 →
    (s.AllOk 1 → exec .togglep s = .next (s.okAfter [ctrlWord c] { s.shadow with ctrl := c })) ∧
    ((s.answerAt 0).isOk = false → exec .togglep s = .next (s.busFailAfter [] (ctrlWord c)))

/-- R102: SETWAVE, its encodings, its no-op on the current shape, its one word with the pattern of R88, and its failure. -/
def Obligations.SetwaveRule : Prop :=
  (∀ arg : Rat, decodeCmd 0x60#8 arg = .ok (.setwave .sine) ∧ decodeCmd 0x61#8 arg = .ok (.setwave .triangle) ∧
    decodeCmd 0x62#8 arg = .ok (.setwave .squareDiv2) ∧ decodeCmd 0x63#8 arg = .ok (.setwave .square)) ∧
  (∀ s : State, s.Idle → exec (.setwave s.shadow.wave) s = .next s.unchangedAfter) ∧
  ∀ (s : State) (shape : Wave) (bits c : Word), s.Idle → shape ≠ s.shadow.wave →
    (shape, bits) ∈ [(Wave.sine, 0x0000#16), (Wave.triangle, 0x0002#16), (Wave.squareDiv2, 0x0020#16), (Wave.square, 0x0028#16)] →
    c = s.shadow.ctrl &&& 0xFFD5#16 ||| bits →
    (s.AllOk 1 → exec (.setwave shape) s = .next (s.okAfter [ctrlWord c] { s.shadow with ctrl := c, wave := shape })) ∧
    ((s.answerAt 0).isOk = false → exec (.setwave shape) s = .next (s.busFailAfter [] (ctrlWord c)))

/-- Two toggles of the same select bit, both words succeeding, restore the control word and issue exactly two words. -/
def Obligations.TogglesRestore : Prop :=
  ∀ (s t u : State) (i : Instr), i = .togglef ∨ i = .togglep → s.Idle → s.AllOk 2 →
    exec i s = .next t → exec i t = .next u →
    u.shadow = s.shadow ∧ ∃ es, u.trace = s.trace ++ es ∧ (wordsOf es).length = 2

/-! ### The outcomes of a command -/

/-- R106: an argument out of range, in each command that takes one. -/
def Obligations.InvalidArgument : Prop :=
  ∀ (s : State) (q : Rat), s.Idle →
    (q < 0 ∨ s.mclk.hz < q →
      (∀ slot, exec (.setfreq slot q) s = .next (s.invalidAfter q)) ∧ exec (.setfreqA q) s = .next (s.invalidAfter q)) ∧
    (q < 0 ∨ 360 < q →
      (∀ slot, exec (.setphase slot q) s = .next (s.invalidAfter q)) ∧ exec (.setphaseA q) s = .next (s.invalidAfter q))

/-- R107: a value the shadow already holds, in each command that can find one. -/
def Obligations.UnchangedValue : Prop :=
  ∀ s : State, s.Idle →
    (∀ (hz : Rat) (slot : Slot), 0 ≤ hz → hz ≤ s.mclk.hz → frequencyToRegister s.mclk hz = s.shadow.freq slot →
      exec (.setfreq slot hz) s = .next s.unchangedAfter ∧
      ((slot = if s.shadow.ctrl.getLsbD 11 then .s1 else .s0) → exec (.setfreqA hz) s = .next s.unchangedAfter)) ∧
    (∀ (deg : Rat) (slot : Slot), 0 ≤ deg → deg ≤ 360 → phaseToRegister deg = s.shadow.phase slot →
      exec (.setphase slot deg) s = .next s.unchangedAfter ∧
      ((slot = if s.shadow.ctrl.getLsbD 10 then .s1 else .s0) → exec (.setphaseA deg) s = .next s.unchangedAfter)) ∧
    exec (.setwave s.shadow.wave) s = .next s.unchangedAfter

/-- R108: a command that reports BUS_FAIL stopped at once at a failed word of the list it issues where every word succeeds, the
words before it having succeeded, with the shadow kept but for SYNCED. -/
def Obligations.BusFailStopsAtOnce : Prop :=
  ∀ (s t : State) (i : Instr), s.Idle → i.isCommand = true → exec i s = .next t → t.status = 3#3 →
    ∃ (sent later : List Word) (w : Word) (sh : Shadow),
      s.AllOk sent.length ∧ (s.answerAt sent.length).isOk = false ∧ t = s.busFailAfter sent w ∧
      ∀ u : State, u.Idle → u.AllOk 10 → u.shadow = s.shadow → u.mclk = s.mclk →
        exec i u = .next (u.okAfter (sent ++ w :: later) sh)

/-- Any of a command's words can be the one that fails: where a command issues the words `ws` if all succeed, it ends in BUS_FAIL
at the first whose transfer fails, whatever the answers after it. -/
def Obligations.AnyWordCanFail : Prop :=
  ∀ (s u : State) (i : Instr) (sent later : List Word) (w : Word) (sh : Shadow), s.Idle → i.isCommand = true →
    u.Idle → u.AllOk 10 → u.shadow = s.shadow → u.mclk = s.mclk →
    exec i u = .next (u.okAfter (sent ++ w :: later) sh) →
    s.AllOk sent.length → (s.answerAt sent.length).isOk = false →
    exec i s = .next (s.busFailAfter sent w)

/-- Every command, run from an idle block, completes and reports exactly one outcome with its record, after at most ten words;
which outcomes a command can have is its own (R104). That every command completes rests on the transport's answer always arriving,
which is the model's choice (assumption 12, unsafe where a transport can stall); R136: "This is an assumption about the transport, and
a model that adopts it errs toward proving if a real transport can stall." -/
def Obligations.OneOutcomePerCommand : Prop :=
  ∀ (s : State) (i : Instr), s.Idle → i.isCommand = true →
    ∃ t r es, exec i s = .next t ∧ t.Idle ∧ t.responses = s.responses ++ [r] ∧ t.status = r.code ∧
      t.trace = s.trace ++ es ∧ (wordsOf es).length ≤ 10 ∧
      ((r = ⟨0#3, .none⟩ ∧ wordsOf es ≠ []) ∨
       (r = ⟨1#3, .none⟩ ∧ wordsOf es = [] ∧ i ≠ .init ∧ i ≠ .togglef ∧ i ≠ .togglep) ∨
       (∃ q, r = ⟨2#3, .argument q⟩ ∧ wordsOf es = [] ∧
          ((∃ slot, i = .setfreq slot q) ∨ i = .setfreqA q ∨ (∃ slot, i = .setphase slot q) ∨ i = .setphaseA q)) ∨
       (r = ⟨3#3, .wordIndex (wordsOf es).length⟩ ∧ wordsOf es ≠ []))

/-- After any outcome but OK the shadow is as it was, except for SYNCED on BUS_FAIL. -/
def Obligations.OutcomesArePrecise : Prop :=
  ∀ (s t : State) (i : Instr), s.Idle → i.isCommand = true → exec i s = .next t → t.status ≠ 0#3 →
    t.shadow = if t.status = 3#3 then { s.shadow with synced := false } else s.shadow

/-- How many words each command issues when it ends OK: 10, 2 or 3, or 1. -/
def Obligations.WordCounts : Prop :=
  ∀ (s t : State) (i : Instr) (es : List Event), s.Idle → i.isCommand = true → exec i s = .next t → t.status = 0#3 →
    t.trace = s.trace ++ es →
    match i with
    | .init => (wordsOf es).length = 10
    | .setfreq slot hz =>
      (wordsOf es).length =
        if upper14 (frequencyToRegister s.mclk hz) = upper14 (s.shadow.freq slot) ∨
          lower14 (frequencyToRegister s.mclk hz) = lower14 (s.shadow.freq slot) then 2 else 3
    | .setfreqA hz =>
      (wordsOf es).length =
        if upper14 (frequencyToRegister s.mclk hz) = upper14 (s.shadow.freq s.shadow.activeFreq) ∨
          lower14 (frequencyToRegister s.mclk hz) = lower14 (s.shadow.freq s.shadow.activeFreq) then 2 else 3
    | _ => (wordsOf es).length = 1

/-! ### SYNCED, STATUS, the chip: what writes them and that no command reads them -/

/-- R29: SYNCED is 0 at power-on, 1 after an INIT that ends OK, 0 after BUS_FAIL, otherwise as it was; and no command reads it: with
another value of SYNCED every command does the same, SYNCED itself apart. -/
def Obligations.SyncedRule : Prop :=
  State.reset.shadow.synced = false ∧
  (∀ (s t : State) (i : Instr), s.Idle → exec i s = .next t →
    t.shadow.synced =
      if i.isCommand = true ∧ t.status = 3#3 then false
      else if i = .init ∧ t.status = 0#3 then true
      else s.shadow.synced) ∧
  ∀ (s t : State) (i : Instr) (b : Bool), s.Idle → exec i s = .next t →
    ∃ b', exec i { s with shadow := { s.shadow with synced := b } } = .next { t with shadow := { t.shadow with synced := b' } }

/-- R30: STATUS is NONE at power-on, every command writes it with its result code and never with 5 or 6, and no command reads
it. -/
def Obligations.StatusRule : Prop :=
  State.reset.status = 7#3 ∧
  (∀ (s t : State) (i : Instr), s.Idle → i.isCommand = true → exec i s = .next t →
    ∃ r, t.responses = s.responses ++ [r] ∧ t.status = r.code ∧ t.status ∈ [0#3, 1#3, 2#3, 3#3]) ∧
  (∀ (s : State) (c : Code), (s.reportIllegal c).status = 4#3) ∧
  ∀ (s : State) (i : Instr) (v : BitVec 3), s.Idle → i.isCommand = true → exec i { s with status := v } = exec i s

/-- The block never reads the chip (R52): with any other chip, in any state or stopped, every command does the same, the chip apart.
That the block goes on while the chip model is stopped is the model's reading (assumption 5). -/
def Obligations.ChipNeverRead : Prop :=
  ∀ (s t : State) (i : Instr) (ch : Chip), s.Idle → i.isCommand = true → exec i s = .next t →
    ∃ ch', exec i { s with chip := ch } = .next { t with chip := ch' }

/-! ### Frames -/

/-- Which registers of the shadow an instruction can change (R33): only INIT and the SETFREQ forms write a frequency register, the
latter the one they target; only INIT and the SETPHASE forms a phase register; only INIT and SETWAVE the waveform. An output word
changes the chip alone. -/
def Obligations.RegisterFrames : Prop :=
  ∀ (s t : State) (i : Instr), s.Idle → exec i s = .next t →
    (∀ slot, t.shadow.freq slot = s.shadow.freq slot ∨ i = .init ∨ (∃ hz, i = .setfreq slot hz) ∨
      ∃ hz, i = .setfreqA hz ∧ slot = s.shadow.activeFreq) ∧
    (∀ slot, t.shadow.phase slot = s.shadow.phase slot ∨ i = .init ∨ (∃ deg, i = .setphase slot deg) ∨
      ∃ deg, i = .setphaseA deg ∧ slot = s.shadow.activePhase) ∧
    (t.shadow.wave = s.shadow.wave ∨ i = .init ∨ ∃ w, i = .setwave w) ∧
    t.mclk = s.mclk ∧ t.inputs = s.inputs ∧
    (i.isCommand = false → ∃ ch, t = { s with chip := ch })

/-- The control word is read-modify-write: a command other than INIT changes only the fields its rule names. -/
def Obligations.ControlFieldsKept : Prop :=
  ∀ (s t : State) (i : Instr), s.Idle → exec i s = .next t →
    match i with
    | .init => True
    | .setfreq _ _ => (t.shadow.ctrl ^^^ s.shadow.ctrl) &&& 0xCFFF#16 = 0#16
    | .setfreqA _ => (t.shadow.ctrl ^^^ s.shadow.ctrl) &&& 0xCFFF#16 = 0#16
    | .togglef => (t.shadow.ctrl ^^^ s.shadow.ctrl) &&& 0xF7FF#16 = 0#16
    | .togglep => (t.shadow.ctrl ^^^ s.shadow.ctrl) &&& 0xFBFF#16 = 0#16
    | .setwave _ => (t.shadow.ctrl ^^^ s.shadow.ctrl) &&& 0xFFD5#16 = 0#16
    | _ => t.shadow.ctrl = s.shadow.ctrl

/-! ### Invariants of the whole machine -/

/-- Every step keeps the sequencer idle, the shape of the control word, the waveform coherence, and a STATUS that is never 5 or
6. -/
def Obligations.StepKeepsInv : Prop :=
  ∀ s t : State, s.Inv → step s = .next t → t.Inv

/-- The invariant holds after power-on, and the trace there is bracketed. -/
def Obligations.PowerOnInv : Prop :=
  State.reset.Inv ∧ bracketed false State.reset.trace = true

/-- R46: an accepted command emits one session with its words inside; an illegal command emits nothing; and no step lets
sessions nest, overlap, or a word stand outside one. -/
def Obligations.SessionsBracketed : Prop :=
  (∀ (s t : State) (i : Instr), s.Idle → i.isCommand = true → exec i s = .next t →
    ∃ es : List (Word × Bool), t.trace = s.trace ++ [.sessionBegin] ++ es.map (fun p => .write p.1 p.2) ++ [.sessionEnd]) ∧
  (∀ (s : State) (c : Code), s.Idle → (s.reportIllegal c).trace = s.trace) ∧
  ∀ s t : State, s.Idle → bracketed false s.trace = true → step s = .next t → bracketed false t.trace = true

/-- No step emits a word R72 excludes: outside INIT every control word has its reserved bits and RESET clear and every phase word
its bit 12; INIT's control words may set RESET. -/
def Obligations.EmittedWordsAllowed : Prop :=
  ∀ s t : State, s.Inv → step s = .next t →
    ∃ es, t.trace = s.trace ++ es ∧
      ((∀ w ∈ wordsOf es, emittable w = true) ∨
       ((∃ arg rest, s.inputs = .cmd 0x10#8 arg :: rest) ∧ ∀ w ∈ wordsOf es, emittableInit w = true))

/-! ### The chip and the shadow -/

/-- The coherence law, R59 (1): a command every word of which succeeds keeps the shadow equal to the chip's registers, whatever its
outcome. `es` are the events of the command. -/
def Obligations.CoherenceKept : Prop :=
  ∀ (s t : State) (i : Instr) (es : List Event), s.Idle → i.isCommand = true → s.Coherent → exec i s = .next t →
    t.trace = s.trace ++ es → (∀ w, Event.write w false ∉ es) → t.Coherent

/-- INIT with all its words succeeding makes shadow and chip equal, whatever the chip's registers held, if no half was pending. -/
def Obligations.InitMakesCoherent : Prop :=
  ∀ (s t : State) (c : ChipRegs), s.Idle → s.AllOk 10 → s.chip = .live c → c.pend = none → exec .init s = .next t →
    t.Coherent ∧ t.shadow.synced = true

/-- A half left pending on the chip survives INIT: with every word of INIT succeeding and SYNCED set, the reference model has
stopped in the case R58 (a). What a stopped reference model is, is the model's reading (assumption 5). -/
def Obligations.StalePairSurvivesInit : Prop :=
  ∀ (s t : State) (c : ChipRegs) (i : Slot) (lo : Half), s.Idle → s.AllOk 10 → s.chip = .live c → c.pend = some (i, lo) →
    exec .init s = .next t → t.chip = .stopped .otherSlotPending ∧ t.shadow.synced = true ∧ t.status = 0#3

/-! ### The output words at the chip -/

/-- R53: a control word. -/
def Obligations.ControlWordAtChip : Prop :=
  ∀ (s : State) (c : ChipRegs) (p : Half), s.Idle → s.chip = .live c →
    exec (.wCtrl p) s = .next { s with chip := .live { c with ctrl := p } }

/-- R54: a frequency word under B28 = 1: the first of a pair, or the second of its pair. -/
def Obligations.FrequencyPairAtChip : Prop :=
  ∀ (s : State) (c : ChipRegs) (p lo : Half), s.Idle → s.chip = .live c → c.ctrl.getLsbD 13 = true →
    (c.pend = none →
      exec (.wFreq0 p) s = .next { s with chip := .live { c with pend := some (.s0, p) } } ∧
      exec (.wFreq1 p) s = .next { s with chip := .live { c with pend := some (.s1, p) } }) ∧
    (c.pend = some (.s0, lo) →
      exec (.wFreq0 p) s = .next { s with chip := .live { c with freq0 := p ++ lo, pend := none } }) ∧
    (c.pend = some (.s1, lo) →
      exec (.wFreq1 p) s = .next { s with chip := .live { c with freq1 := p ++ lo, pend := none } })

/-- R55: a frequency word under B28 = 0 and HLB = 1 writes the upper half only. -/
def Obligations.FrequencyUpperAtChip : Prop :=
  ∀ (s : State) (c : ChipRegs) (p : Half), s.Idle → s.chip = .live c → c.ctrl.getLsbD 13 = false → c.ctrl.getLsbD 12 = true →
    c.pend = none →
    (∃ v, exec (.wFreq0 p) s = .next { s with chip := .live { c with freq0 := v } } ∧
      v.extractLsb' 14 14 = p ∧ v.extractLsb' 0 14 = c.freq0.extractLsb' 0 14) ∧
    ∃ v, exec (.wFreq1 p) s = .next { s with chip := .live { c with freq1 := v } } ∧
      v.extractLsb' 14 14 = p ∧ v.extractLsb' 0 14 = c.freq1.extractLsb' 0 14

/-- R56: a frequency word under B28 = 0 and HLB = 0 writes the lower half only. -/
def Obligations.FrequencyLowerAtChip : Prop :=
  ∀ (s : State) (c : ChipRegs) (p : Half), s.Idle → s.chip = .live c → c.ctrl.getLsbD 13 = false → c.ctrl.getLsbD 12 = false →
    c.pend = none →
    (∃ v, exec (.wFreq0 p) s = .next { s with chip := .live { c with freq0 := v } } ∧
      v.extractLsb' 0 14 = p ∧ v.extractLsb' 14 14 = c.freq0.extractLsb' 14 14) ∧
    ∃ v, exec (.wFreq1 p) s = .next { s with chip := .live { c with freq1 := v } } ∧
      v.extractLsb' 0 14 = p ∧ v.extractLsb' 14 14 = c.freq1.extractLsb' 14 14

/-- R57: a phase word, whatever its bit 12. -/
def Obligations.PhaseWordAtChip : Prop :=
  ∀ (s : State) (c : ChipRegs) (x : BitVec 1) (p : Phase), s.Idle → s.chip = .live c →
    exec (.wPhase0 x p) s = .next { s with chip := .live { c with phase0 := p } } ∧
    exec (.wPhase1 x p) s = .next { s with chip := .live { c with phase1 := p } }

/-- R58 (a) and (b): a frequency word under B28 = 1 with the other slot's half pending, or under B28 = 0 with any half pending, stops
the reference model; no register of it holds a value then. That the word itself still completes, and what the stopped chip keeps, is
the model's reading (assumption 5). -/
def Obligations.HalfDonePairAtChip : Prop :=
  ∀ (s : State) (c : ChipRegs) (p lo : Half), s.Idle → s.chip = .live c →
    (c.ctrl.getLsbD 13 = true →
      (c.pend = some (.s1, lo) → exec (.wFreq0 p) s = .next { s with chip := .stopped .otherSlotPending }) ∧
      (c.pend = some (.s0, lo) → exec (.wFreq1 p) s = .next { s with chip := .stopped .otherSlotPending })) ∧
    (c.ctrl.getLsbD 13 = false → ∀ j, c.pend = some (j, lo) →
      exec (.wFreq0 p) s = .next { s with chip := .stopped .pairHalfDone } ∧
      exec (.wFreq1 p) s = .next { s with chip := .stopped .pairHalfDone })

/-- A word sent by itself to a reference model that has stopped is a fault, with the reason it stopped for; it never yields a
value. The model's reading of "a fault of the reference model" (assumption 5). -/
def Obligations.StoppedChipFaults : Prop :=
  ∀ (s : State) (f : Fault) (h : Half) (x : BitVec 1) (p : Phase), s.Idle → s.chip = .stopped f →
    exec (.wCtrl h) s = .fault f ∧ exec (.wFreq0 h) s = .fault f ∧ exec (.wFreq1 h) s = .fault f ∧
    exec (.wPhase0 x p) s = .fault f ∧ exec (.wPhase1 x p) s = .fault f

/-! ### The sequencer, several blocks, the textual form -/

/-- A command presented while another runs is held until that one has ended, and then runs as it would have from there (R47).
`State.drain` ends the command in progress: its words from the step index on are transferred in order and the staged shadow is
committed, or it stops in BUS_FAIL at the first that fails; an idle block it leaves alone. A command run from an idle block that issues
the words `ws` and commits `sh` where all succeed (the state `u`) is its session opened, its list and staged shadow loaded at index 0,
and that same draining. A step that begins in the middle of a command is the model's form (assumption 8); that the draining ends is
the transport always answering (assumption 12). -/
def Obligations.HeldUntilSessionEnd : Prop :=
  (∀ (s : State) (q : Sequencer), s.seq = some q →
    (s.AllOk (q.words.drop q.index).length → s.drain = s.resumedOk q (q.words.drop q.index)) ∧
    ∀ (sent later : List Word) (w : Word), q.words.drop q.index = sent ++ w :: later → s.AllOk sent.length →
      (s.answerAt sent.length).isOk = false → s.drain = s.resumedFail q sent w) ∧
  (∀ s : State, s.Idle → s.drain = s) ∧
  (∀ s : State, s.drain.Idle ∧ (∀ i : Instr, exec i s = exec i s.drain) ∧ (∀ c : Code, s.reportIllegal c = s.drain.reportIllegal c) ∧
    (s.inputs = [] → step s = .next s.drain)) ∧
  ∀ (s u : State) (i : Instr) (ws : List Word) (sh : Shadow), s.Idle → i.isCommand = true → u.Idle → u.AllOk 10 →
    u.shadow = s.shadow → u.mclk = s.mclk → exec i u = .next (u.okAfter ws sh) →
    exec i s = .next (State.drain { s with trace := s.trace ++ [.sessionBegin], seq := some ⟨i, sh, ws, 0⟩ })

/-- One step of a running sequencer: the word at the index is transferred, and the index rises by one if it succeeded; a failed
word ends the command; past the last word the staged shadow is committed. One transfer as a step of its own is the model's form
(assumption 8). -/
def Obligations.IndexRisesByOne : Prop :=
  ∀ (s : State) (q : Sequencer), s.seq = some q →
    (∀ w, q.words[q.index]? = some w →
      s.tick.trace = s.trace ++ [.write w (s.answerAt 0).isOk] ++ (if (s.answerAt 0).isOk then [] else [.sessionEnd]) ∧
      s.tick.seq = (if (s.answerAt 0).isOk then some { q with index := q.index + 1 } else none) ∧
      s.tick.shadow = if (s.answerAt 0).isOk then s.shadow else { s.shadow with synced := false }) ∧
    (q.words[q.index]? = none → s.tick.shadow = q.staged ∧ s.tick.seq = none ∧ s.tick.trace = s.trace ++ [.sessionEnd])

/-- Several blocks: a step of one leaves every other block's state, its shadow and its chip among it, as it was, and is that
block's own step. That a command is one step is the model's form (assumptions 8 and 16). -/
def Obligations.InstancesIndependent : Prop :=
  ∀ (blocks after : List State) (k : Nat), Platform.stepAt blocks k = .next after →
    after.length = blocks.length ∧ (∀ j, j ≠ k → after[j]? = blocks[j]?) ∧
    ∀ s, blocks[k]? = some s → ∃ t, step s = .next t ∧ after[k]? = some t

/-- The textual form (R76). Lines that differ in letter case, or after a `;`, assemble alike; and each line form, its parts set apart by
any number of blanks, assembles to its instruction, with every `<num>` at its exact value. That operands too are case-insensitive, and
that a `-` may stand before `p/q`, is the model's reading (assumption 15). -/
def Obligations.AssemblerCaseAndComment : Prop :=
  (∀ l m : List Char, l.map Char.toLower = m.map Char.toLower → Asm.assemble l = Asm.assemble m) ∧
  (∀ l comment : List Char, Asm.assemble (l ++ ';' :: comment) = Asm.assemble l) ∧
  (Asm.assemble "init".toList = some .init ∧ Asm.assemble "togglef".toList = some .togglef ∧
    Asm.assemble "togglep".toList = some .togglep) ∧
  (∀ a : Nat,
    Asm.assemble ("setwave".toList ++ blanks (a + 1) ++ "sine".toList) = some (.setwave .sine) ∧
    Asm.assemble ("setwave".toList ++ blanks (a + 1) ++ "triangle".toList) = some (.setwave .triangle) ∧
    Asm.assemble ("setwave".toList ++ blanks (a + 1) ++ "square_div2".toList) = some (.setwave .squareDiv2) ∧
    Asm.assemble ("setwave".toList ++ blanks (a + 1) ++ "square".toList) = some (.setwave .square)) ∧
  ∀ (t : List Char) (q : Rat) (a b : Nat), IsNumber t q →
    Asm.assemble ("setfreq".toList ++ blanks (a + 1) ++ "f0,".toList ++ blanks b ++ t) = some (.setfreq .s0 q) ∧
    Asm.assemble ("setfreq".toList ++ blanks (a + 1) ++ "f1,".toList ++ blanks b ++ t) = some (.setfreq .s1 q) ∧
    Asm.assemble ("setfreq".toList ++ blanks (a + 1) ++ t) = some (.setfreqA q) ∧
    Asm.assemble ("setphase".toList ++ blanks (a + 1) ++ "p0,".toList ++ blanks b ++ t) = some (.setphase .s0 q) ∧
    Asm.assemble ("setphase".toList ++ blanks (a + 1) ++ "p1,".toList ++ blanks b ++ t) = some (.setphase .s1 q) ∧
    Asm.assemble ("setphase".toList ++ blanks (a + 1) ++ t) = some (.setphaseA q)
end

