-- ==== Sys2Proof/Laws/Assembly.lean ====
section
/-! SUPPORT. What the reader of the textual form does with blanks, words, commas and digits, said once. -/

namespace Sys2Proof.Machine

/-- A character that stands for itself inside a token: no blank, no comma, no comment, and no capital. -/
def Asm.Plain (c : Char) : Prop := c ≠ ' ' ∧ c ≠ '\t' ∧ c ≠ ',' ∧ c ≠ ';' ∧ c.toLower = c

/-- The same of every character of a word, as a test that evaluates. -/
theorem Asm.plain_of_all {w : List Char}
    (h : w.all (fun c => c != ' ' && c != '\t' && c != ',' && c != ';' && c.toLower == c) = true) : ∀ c ∈ w, Asm.Plain c := by
  simpa [Asm.Plain, and_assoc] using h

/-- Letters are lowered before or after the comment is cut alike: no letter is lowered to or from a `;`. -/
theorem Asm.toLower_eq_semicolon (c : Char) : c.toLower = ';' ↔ c = ';' := by
  constructor
  · intro h
    unfold Char.toLower at h
    split at h
    · rename_i hc
      have hv := congrArg (fun d : Char => d.val.toNat) h
      have h1 : 65 ≤ c.val.toNat := by simpa [UInt32.le_iff_toNat_le] using hc.1
      have h2 : c.val.toNat ≤ 90 := by simpa [UInt32.le_iff_toNat_le] using hc.2
      have h3 : c.val.toNat = c.toNat := rfl
      simp [UInt32.toNat_add] at hv
      omega
    · exact h
  · rintro rfl
    rfl

/-! ### Tokens -/

/-- A word is read onto the token so far. -/
theorem Asm.tokens_word {w : List Char} (hw : ∀ c ∈ w, Asm.Plain c) : ∀ (cur rest : List Char),
    Asm.tokens cur (w ++ rest) = Asm.tokens (cur ++ w) rest := by
  induction w with
  | nil => intro cur rest; simp
  | cons c w ih =>
    intro cur rest
    obtain ⟨h1, h2, h3, _⟩ := hw c (by simp)
    rw [List.cons_append, Asm.tokens, if_neg (by simp [h1, h2]), if_neg h3, ih (fun d hd => hw d (by simp [hd]))]
    simp

/-- Blanks between tokens are passed over. -/
theorem Asm.tokens_blanks (n : Nat) (rest : List Char) : Asm.tokens [] (blanks n ++ rest) = Asm.tokens [] rest := by
  induction n with
  | zero => rfl
  | succ n ih =>
    rw [blanks, List.replicate_succ, List.cons_append, Asm.tokens, if_pos (.inl rfl), if_pos rfl]
    exact ih

/-- A blank ends a token. -/
theorem Asm.tokens_end_blank {cur : List Char} (h : cur ≠ []) (n : Nat) (rest : List Char) :
    Asm.tokens cur (blanks (n + 1) ++ rest) = cur :: Asm.tokens [] rest := by
  rw [blanks, List.replicate_succ, List.cons_append, Asm.tokens, if_pos (.inl rfl), if_neg h, ← blanks, Asm.tokens_blanks]

/-- A comma ends a token and is one. -/
theorem Asm.tokens_end_comma {cur : List Char} (h : cur ≠ []) (rest : List Char) :
    Asm.tokens cur (',' :: rest) = cur :: [','] :: Asm.tokens [] rest := by
  rw [Asm.tokens, if_neg (by decide), if_pos rfl, if_neg h]

/-- The end of the line ends a token. -/
theorem Asm.tokens_end {cur : List Char} (h : cur ≠ []) : Asm.tokens cur [] = [cur] := by
  rw [Asm.tokens, if_neg h]

/-- A line without a comment and without capitals is read as it stands. -/
theorem Asm.lineTokens_clean {l : List Char} (h : ∀ c ∈ l, c ≠ ';' ∧ c.toLower = c) : Asm.lineTokens l = Asm.tokens [] l := by
  have h1 : l.takeWhile (fun c => c != ';') = l := by
    rw [List.takeWhile_eq_self_iff]
    intro c hc
    simpa using (h c hc).1
  have h2 : l.map Char.toLower = l := by
    rw [List.map_congr_left (fun c hc => (h c hc).2)]
    simp
  rw [Asm.lineTokens, h1, h2]

/-! ### Numbers -/

theorem Asm.digit_digitChar (d : Fin 10) : Asm.digit (Char.ofNat (48 + d.val)) = some d.val := by
  revert d
  decide

/-- Digits are read as the number they write, onto a value so far. -/
theorem Asm.digits_digitChars (ds : List (Fin 10)) : ∀ v : Nat,
    Asm.digits v (digitChars ds) = some (ds.foldl (fun v d => 10 * v + d.val) v) := by
  induction ds with
  | nil => intro v; rfl
  | cons d ds ih =>
    intro v
    rw [digitChars, List.map_cons, Asm.digits, Asm.digit_digitChar]
    simp only [List.foldl_cons]
    rw [← ih, Nat.mul_comm]
    rfl

theorem Asm.natural_digitChars {ds : List (Fin 10)} (h : ds ≠ []) : Asm.natural (digitChars ds) = some (decimal ds) := by
  cases ds with
  | nil => exact absurd rfl h
  | cons d ds => exact Asm.digits_digitChars (d :: ds) 0

/-- A digit is neither a sign nor a mark, and stands for itself. -/
theorem Asm.mem_digitChars {c : Char} {ds : List (Fin 10)} (h : c ∈ digitChars ds) :
    Asm.Plain c ∧ c ≠ '/' ∧ c ≠ '.' ∧ c ≠ '-' := by
  obtain ⟨d, hd, rfl⟩ := List.mem_map.mp h
  unfold Asm.Plain
  clear h hd
  revert d
  decide

/-- A token without the mark is not split. -/
theorem Asm.splitAt_none {c : Char} {l : List Char} (h : c ∉ l) : Asm.splitAt c l = (l, none) := by
  induction l with
  | nil => rfl
  | cons d l ih =>
    simp only [List.mem_cons, not_or] at h
    rw [Asm.splitAt, if_neg (Ne.symm h.1), ih h.2]

/-- A token is split at the first mark. -/
theorem Asm.splitAt_mark {c : Char} {l : List Char} (h : c ∉ l) (r : List Char) :
    Asm.splitAt c (l ++ c :: r) = (l, some r) := by
  induction l with
  | nil => simp [Asm.splitAt]
  | cons d l ih =>
    simp only [List.mem_cons, not_or] at h
    rw [List.cons_append, Asm.splitAt, if_neg (Ne.symm h.1), ih h.2]

theorem Asm.length_digitChars (ds : List (Fin 10)) : (digitChars ds).length = ds.length := by simp [digitChars]

end Sys2Proof.Machine
end

