-- ==== Sys2Proof/Laws/Chip.lean ====
section
/-! SUPPORT. What a frequency word can do to the reference chip model, said once. -/

namespace Sys2Proof.Machine

@[simp] theorem ChipRegs.freq_setFreq (c : ChipRegs) (i j : Slot) (v : Freq) :
    (c.setFreq i v).freq j = if j = i then v else c.freq j := by cases i <;> cases j <;> rfl

@[simp] theorem ChipRegs.ctrl_setFreq (c : ChipRegs) (i : Slot) (v : Freq) : (c.setFreq i v).ctrl = c.ctrl := by
  cases i <;> rfl

@[simp] theorem ChipRegs.pend_setFreq (c : ChipRegs) (i : Slot) (v : Freq) : (c.setFreq i v).pend = c.pend := by
  cases i <;> rfl

@[simp] theorem ChipRegs.pend_setPhase (c : ChipRegs) (i : Slot) (v : Phase) : (c.setPhase i v).pend = c.pend := by
  cases i <;> rfl

/-- With no half pending the word is taken by the mode bits alone. -/
theorem ChipRegs.receiveFreq_fresh {c : ChipRegs} (h : c.pend = none) (i : Slot) (p : Half) :
    c.receiveFreq i p = .live (c.freshFreq i p) := by
  simp [ChipRegs.receiveFreq, h]

/-- The four ways a frequency word can go. -/
theorem ChipRegs.receiveFreq_cases (c : ChipRegs) (i : Slot) (p : Half) :
    (c.pend = none ∧ c.receiveFreq i p = .live (c.freshFreq i p)) ∨
    (∃ lo, c.pend = some (i, lo) ∧ c.b28 = true ∧ c.receiveFreq i p = .live { c.setFreq i (p ++ lo) with pend := none }) ∨
    (∃ j lo, c.pend = some (j, lo) ∧ j ≠ i ∧ c.b28 = true ∧ c.receiveFreq i p = .stopped .otherSlotPending) ∨
    ∃ j lo, c.pend = some (j, lo) ∧ c.b28 = false ∧ c.receiveFreq i p = .stopped .pairHalfDone := by
  unfold ChipRegs.receiveFreq
  cases hp : c.pend with
  | none => exact .inl ⟨rfl, rfl⟩
  | some x =>
    obtain ⟨j, lo⟩ := x
    cases hb : c.b28 with
    | false => exact .inr (.inr (.inr ⟨j, lo, rfl, rfl, rfl⟩))
    | true =>
      by_cases hj : j = i
      · subst hj
        exact .inr (.inl ⟨lo, rfl, rfl, by simp⟩)
      · exact .inr (.inr (.inl ⟨j, lo, rfl, hj, rfl, by simp [hj]⟩))

/-- A stopped chip takes no word. -/
theorem Chip.foldl_receive_stopped (ws : List Word) (f : Fault) : ws.foldl Chip.receive (.stopped f) = .stopped f := by
  induction ws with
  | nil => rfl
  | cons w ws ih => exact ih

end Sys2Proof.Machine
end

