-- ==== Sys2Proof/Laws/Operands.lean ====
section
/-! SUPPORT. What the operand functions of Machine/Operands.lean give, said once. -/

namespace Sys2Proof.Machine

/-- `scaleFloor` is the exact rational quotient rounded down. -/
theorem scaleFloor_eq (q : Rat) (n d : Int) (hd : 0 < d) : scaleFloor q n d = ⌊q * n / d⌋ := by
  unfold scaleFloor
  lift d to ℕ using hd.le
  have hd' : (d : Rat) ≠ 0 := by exact_mod_cast hd.ne'
  have hq : (q.den : Rat) ≠ 0 := by exact_mod_cast q.den_nz
  have h : q * n / ((d : Int) : Rat) = ((q.num * n : Int) : Rat) / ((q.den * d : Nat) : Rat) := by
    push_cast
    conv_lhs => rw [← Rat.num_div_den q]
    field_simp
  rw [h, Rat.floor_intCast_div_natCast]
  push_cast
  rfl

/-! ### The slots of the shadow -/

@[simp] theorem Shadow.freq_setFreq (sh : Shadow) (i j : Slot) (v : Freq) :
    (sh.setFreq i v).freq j = if j = i then v else sh.freq j := by cases i <;> cases j <;> rfl

@[simp] theorem Shadow.phase_setFreq (sh : Shadow) (i j : Slot) (v : Freq) :
    (sh.setFreq i v).phase j = sh.phase j := by cases i <;> cases j <;> rfl

@[simp] theorem Shadow.ctrl_setFreq (sh : Shadow) (i : Slot) (v : Freq) : (sh.setFreq i v).ctrl = sh.ctrl := by
  cases i <;> rfl

@[simp] theorem Shadow.wave_setFreq (sh : Shadow) (i : Slot) (v : Freq) : (sh.setFreq i v).wave = sh.wave := by
  cases i <;> rfl

@[simp] theorem Shadow.synced_setFreq (sh : Shadow) (i : Slot) (v : Freq) : (sh.setFreq i v).synced = sh.synced := by
  cases i <;> rfl

@[simp] theorem Shadow.phase_setPhase (sh : Shadow) (i j : Slot) (v : Phase) :
    (sh.setPhase i v).phase j = if j = i then v else sh.phase j := by cases i <;> cases j <;> rfl

@[simp] theorem Shadow.freq_setPhase (sh : Shadow) (i j : Slot) (v : Phase) :
    (sh.setPhase i v).freq j = sh.freq j := by cases i <;> cases j <;> rfl

@[simp] theorem Shadow.ctrl_setPhase (sh : Shadow) (i : Slot) (v : Phase) : (sh.setPhase i v).ctrl = sh.ctrl := by
  cases i <;> rfl

@[simp] theorem Shadow.wave_setPhase (sh : Shadow) (i : Slot) (v : Phase) : (sh.setPhase i v).wave = sh.wave := by
  cases i <;> rfl

@[simp] theorem Shadow.synced_setPhase (sh : Shadow) (i : Slot) (v : Phase) :
    (sh.setPhase i v).synced = sh.synced := by cases i <;> rfl

end Sys2Proof.Machine
end

