-- ==== Sys2Proof/Laws/State.lean ====
section
/-! SUPPORT. One small lemma per field per update of the state, so that no later proof unfolds a record update. -/

namespace Sys2Proof.Machine

/-! ### `memWrite` -/

@[simp] theorem State.memWrite_shadow (w : Word) (s : State) : (s.memWrite w).shadow = s.shadow := rfl
@[simp] theorem State.memWrite_status (w : Word) (s : State) : (s.memWrite w).status = s.status := rfl
@[simp] theorem State.memWrite_seq (w : Word) (s : State) : (s.memWrite w).seq = s.seq := rfl
@[simp] theorem State.memWrite_chip (w : Word) (s : State) : (s.memWrite w).chip = if (s.answerAt 0).lands then s.chip.receive w else s.chip := rfl
@[simp] theorem State.memWrite_mclk (w : Word) (s : State) : (s.memWrite w).mclk = s.mclk := rfl
@[simp] theorem State.memWrite_inputs (w : Word) (s : State) : (s.memWrite w).inputs = s.inputs := rfl
@[simp] theorem State.memWrite_answers (w : Word) (s : State) : (s.memWrite w).answers = s.answers.tail := rfl
@[simp] theorem State.memWrite_draws (w : Word) (s : State) : (s.memWrite w).draws = s.draws + 1 := rfl
@[simp] theorem State.memWrite_trace (w : Word) (s : State) : (s.memWrite w).trace = s.trace ++ [.write w (s.answerAt 0).isOk] := rfl
@[simp] theorem State.memWrite_responses (w : Word) (s : State) : (s.memWrite w).responses = s.responses := rfl

/-! ### `openSession` -/

@[simp] theorem State.openSession_shadow (s : State) : (s.openSession).shadow = s.shadow := rfl
@[simp] theorem State.openSession_status (s : State) : (s.openSession).status = s.status := rfl
@[simp] theorem State.openSession_seq (s : State) : (s.openSession).seq = s.seq := rfl
@[simp] theorem State.openSession_chip (s : State) : (s.openSession).chip = s.chip := rfl
@[simp] theorem State.openSession_mclk (s : State) : (s.openSession).mclk = s.mclk := rfl
@[simp] theorem State.openSession_inputs (s : State) : (s.openSession).inputs = s.inputs := rfl
@[simp] theorem State.openSession_answers (s : State) : (s.openSession).answers = s.answers := rfl
@[simp] theorem State.openSession_draws (s : State) : (s.openSession).draws = s.draws := rfl
@[simp] theorem State.openSession_trace (s : State) : (s.openSession).trace = s.trace ++ [.sessionBegin] := rfl
@[simp] theorem State.openSession_responses (s : State) : (s.openSession).responses = s.responses := rfl

/-! ### `finish` -/

@[simp] theorem State.finish_shadow (code : BitVec 3) (info : Info) (s : State) : (s.finish code info).shadow = s.shadow := rfl
@[simp] theorem State.finish_status (code : BitVec 3) (info : Info) (s : State) : (s.finish code info).status = code := rfl
@[simp] theorem State.finish_seq (code : BitVec 3) (info : Info) (s : State) : (s.finish code info).seq = none := rfl
@[simp] theorem State.finish_chip (code : BitVec 3) (info : Info) (s : State) : (s.finish code info).chip = s.chip := rfl
@[simp] theorem State.finish_mclk (code : BitVec 3) (info : Info) (s : State) : (s.finish code info).mclk = s.mclk := rfl
@[simp] theorem State.finish_inputs (code : BitVec 3) (info : Info) (s : State) : (s.finish code info).inputs = s.inputs := rfl
@[simp] theorem State.finish_answers (code : BitVec 3) (info : Info) (s : State) : (s.finish code info).answers = s.answers := rfl
@[simp] theorem State.finish_draws (code : BitVec 3) (info : Info) (s : State) : (s.finish code info).draws = s.draws := rfl
@[simp] theorem State.finish_trace (code : BitVec 3) (info : Info) (s : State) : (s.finish code info).trace = s.trace ++ [.sessionEnd] := rfl
@[simp] theorem State.finish_responses (code : BitVec 3) (info : Info) (s : State) : (s.finish code info).responses = s.responses ++ [⟨code, info⟩] := rfl

/-! ### `finishOk` -/

@[simp] theorem State.finishOk_shadow (sh : Shadow) (s : State) : (s.finishOk sh).shadow = sh := rfl
@[simp] theorem State.finishOk_status (sh : Shadow) (s : State) : (s.finishOk sh).status = 0#3 := rfl
@[simp] theorem State.finishOk_seq (sh : Shadow) (s : State) : (s.finishOk sh).seq = none := rfl
@[simp] theorem State.finishOk_chip (sh : Shadow) (s : State) : (s.finishOk sh).chip = s.chip := rfl
@[simp] theorem State.finishOk_mclk (sh : Shadow) (s : State) : (s.finishOk sh).mclk = s.mclk := rfl
@[simp] theorem State.finishOk_inputs (sh : Shadow) (s : State) : (s.finishOk sh).inputs = s.inputs := rfl
@[simp] theorem State.finishOk_answers (sh : Shadow) (s : State) : (s.finishOk sh).answers = s.answers := rfl
@[simp] theorem State.finishOk_draws (sh : Shadow) (s : State) : (s.finishOk sh).draws = s.draws := rfl
@[simp] theorem State.finishOk_trace (sh : Shadow) (s : State) : (s.finishOk sh).trace = s.trace ++ [.sessionEnd] := rfl
@[simp] theorem State.finishOk_responses (sh : Shadow) (s : State) : (s.finishOk sh).responses = s.responses ++ [⟨0#3, .none⟩] := rfl

/-! ### `finishBusFail` -/

@[simp] theorem State.finishBusFail_shadow (k : Nat) (s : State) : (s.finishBusFail k).shadow = { s.shadow with synced := false } := rfl
@[simp] theorem State.finishBusFail_status (k : Nat) (s : State) : (s.finishBusFail k).status = 3#3 := rfl
@[simp] theorem State.finishBusFail_seq (k : Nat) (s : State) : (s.finishBusFail k).seq = none := rfl
@[simp] theorem State.finishBusFail_chip (k : Nat) (s : State) : (s.finishBusFail k).chip = s.chip := rfl
@[simp] theorem State.finishBusFail_mclk (k : Nat) (s : State) : (s.finishBusFail k).mclk = s.mclk := rfl
@[simp] theorem State.finishBusFail_inputs (k : Nat) (s : State) : (s.finishBusFail k).inputs = s.inputs := rfl
@[simp] theorem State.finishBusFail_answers (k : Nat) (s : State) : (s.finishBusFail k).answers = s.answers := rfl
@[simp] theorem State.finishBusFail_draws (k : Nat) (s : State) : (s.finishBusFail k).draws = s.draws := rfl
@[simp] theorem State.finishBusFail_trace (k : Nat) (s : State) : (s.finishBusFail k).trace = s.trace ++ [.sessionEnd] := rfl
@[simp] theorem State.finishBusFail_responses (k : Nat) (s : State) : (s.finishBusFail k).responses = s.responses ++ [⟨3#3, .wordIndex k⟩] := rfl

/-! ### `load` -/

@[simp] theorem State.load_shadow (cmd : Instr) (ws : List Word) (sh : Shadow) (s : State) : (s.load cmd ws sh).shadow = s.shadow := rfl
@[simp] theorem State.load_status (cmd : Instr) (ws : List Word) (sh : Shadow) (s : State) : (s.load cmd ws sh).status = s.status := rfl
@[simp] theorem State.load_seq (cmd : Instr) (ws : List Word) (sh : Shadow) (s : State) : (s.load cmd ws sh).seq = some ⟨cmd, sh, ws, 0⟩ := rfl
@[simp] theorem State.load_chip (cmd : Instr) (ws : List Word) (sh : Shadow) (s : State) : (s.load cmd ws sh).chip = s.chip := rfl
@[simp] theorem State.load_mclk (cmd : Instr) (ws : List Word) (sh : Shadow) (s : State) : (s.load cmd ws sh).mclk = s.mclk := rfl
@[simp] theorem State.load_inputs (cmd : Instr) (ws : List Word) (sh : Shadow) (s : State) : (s.load cmd ws sh).inputs = s.inputs := rfl
@[simp] theorem State.load_answers (cmd : Instr) (ws : List Word) (sh : Shadow) (s : State) : (s.load cmd ws sh).answers = s.answers := rfl
@[simp] theorem State.load_draws (cmd : Instr) (ws : List Word) (sh : Shadow) (s : State) : (s.load cmd ws sh).draws = s.draws := rfl
@[simp] theorem State.load_trace (cmd : Instr) (ws : List Word) (sh : Shadow) (s : State) : (s.load cmd ws sh).trace = s.trace := rfl
@[simp] theorem State.load_responses (cmd : Instr) (ws : List Word) (sh : Shadow) (s : State) : (s.load cmd ws sh).responses = s.responses := rfl

end Sys2Proof.Machine
end

