-- ==== Sys2Proof/Laws/Ops.lean ====
section
/-! SUPPORT. What the sequencer and the command frame can do, said once. -/

namespace Sys2Proof.Machine

/-! ### The transport's answers -/

theorem State.answerAt_memWrite (w : Word) (s : State) (k : Nat) :
    (s.memWrite w).answerAt k = s.answerAt (k + 1) := by
  unfold State.answerAt
  simp [List.getElem?_tail, Nat.add_comm, Nat.add_left_comm]

/-- The answers a state gives depend on two fields only. -/
theorem State.answerAt_congr {s t : State} (ha : s.answers = t.answers) (hd : s.draws = t.draws) (k : Nat) :
    s.answerAt k = t.answerAt k := by
  unfold State.answerAt
  rw [ha, hd]

theorem Answer.isOk_eq {a : Answer} (h : a.isOk = true) : a = .ok := by cases a <;> simp_all [Answer.isOk]

/-! ### The sequencer -/

theorem State.tick_idle {s : State} (h : s.seq = none) : s.tick = s := by
  unfold State.tick
  rw [h]

theorem State.ticks_idle {s : State} (h : s.seq = none) (n : Nat) : s.ticks n = s := by
  induction n with
  | zero => rfl
  | succ n ih => simp only [State.ticks, State.tick_idle h, ih]

theorem State.drain_idle {s : State} (h : s.seq = none) : s.drain = s := by
  unfold State.drain
  rw [h]

/-- What one step of a running sequencer can be. -/
theorem State.tick_cases {s : State} {q : Sequencer} (h : s.seq = some q) :
    (q.words.drop q.index = [] ∧ s.tick = s.finishOk q.staged) ∨
    (∃ w later, q.words.drop q.index = w :: later ∧ (s.answerAt 0).isOk = true ∧
      s.tick = { s.memWrite w with seq := some { q with index := q.index + 1 } }) ∨
    (∃ w later, q.words.drop q.index = w :: later ∧ (s.answerAt 0).isOk = false ∧
      s.tick = (s.memWrite w).finishBusFail (q.index + 1)) := by
  cases hw : q.words[q.index]? with
  | none =>
    refine .inl ⟨List.drop_eq_nil_of_le (List.getElem?_eq_none_iff.mp hw), ?_⟩
    simp only [State.tick, h, hw]
  | some w =>
    obtain ⟨hlt, he⟩ := List.getElem?_eq_some_iff.mp hw
    have hd : q.words.drop q.index = w :: q.words.drop (q.index + 1) := by
      rw [← he]
      exact List.drop_eq_getElem_cons hlt
    cases ho : (s.answerAt 0).isOk with
    | true => exact .inr (.inl ⟨w, _, hd, rfl, by simp only [State.tick, h, hw, ho, if_true]⟩)
    | false => exact .inr (.inr ⟨w, _, hd, rfl, by simp [State.tick, h, hw, ho]⟩)

theorem Sequencer.ticksLeft_eq (q : Sequencer) : q.ticksLeft = (q.words.drop q.index).length + 1 := by
  simp [Sequencer.ticksLeft]

/-- A sequencer's remaining words, one at a time. -/
theorem drop_succ_of_drop {ws later : List Word} {w : Word} {n : Nat} (h : ws.drop n = w :: later) :
    ws.drop (n + 1) = later := by
  have := congrArg (List.drop 1) h
  simpa [List.drop_drop, Nat.add_comm] using this

/-- The state a run of words leaves, all of them transferred, before the command ends. -/
def State.sent (s : State) (ws : List Word) : State :=
  { s with
    chip := ws.foldl Chip.receive s.chip
    answers := s.answers.drop ws.length
    draws := s.draws + ws.length
    trace := s.trace ++ ws.map (fun w => .write w true) }

theorem State.sent_cons {s : State} (w : Word) (ws : List Word) (h : (s.answerAt 0).isOk = true) :
    s.sent (w :: ws) = (s.memWrite w).sent ws := by
  have ha := Answer.isOk_eq h
  have hl : s.draws + (ws.length + 1) = s.draws + 1 + ws.length := by omega
  simp [State.sent, ha, Answer.lands, Answer.isOk, State.memWrite, hl]

/-- A running sequencer whose words all succeed commits. -/
theorem State.ticks_ok (rest : List Word) : ∀ {s : State} {q : Sequencer}, s.seq = some q →
    q.words.drop q.index = rest → s.AllOk rest.length →
    s.ticks (rest.length + 1) = (s.sent rest).finishOk q.staged := by
  induction rest with
  | nil =>
    intro s q hq hr _
    rcases State.tick_cases hq with ⟨_, ht⟩ | ⟨w, l, hd, _⟩ | ⟨w, l, hd, _⟩
    · simp [State.ticks, ht, State.sent, State.finishOk]
    · simp [hr] at hd
    · simp [hr] at hd
  | cons w rest ih =>
    intro s q hq hr hok
    have h0 := hok 0 (by simp)
    rcases State.tick_cases hq with ⟨hd, _⟩ | ⟨w', l, hd, _, ht⟩ | ⟨w', l, hd, hf, _⟩
    · simp [hr] at hd
    · rw [hr] at hd
      obtain ⟨rfl, rfl⟩ := List.cons.inj hd
      rw [List.length_cons, State.ticks, ht]
      rw [ih (q := { q with index := q.index + 1 }) rfl (drop_succ_of_drop hr)]
      · rw [State.sent_cons _ _ h0]
        rfl
      · intro k hk
        have := hok (k + 1) (by simp; omega)
        rw [← State.answerAt_memWrite w s k] at this
        exact this
    · simp [h0] at hf

/-- A running sequencer whose words fail at `w`, after the words `sent`, stops there. -/
theorem State.ticks_fail (sent : List Word) : ∀ {s : State} {q : Sequencer} {w : Word} {later : List Word},
    s.seq = some q → q.words.drop q.index = sent ++ w :: later → s.AllOk sent.length →
    (s.answerAt sent.length).isOk = false →
    s.ticks ((sent ++ w :: later).length + 1) =
      ((s.sent sent).memWrite w).finishBusFail (q.index + sent.length + 1) := by
  induction sent with
  | nil =>
    intro s q w later hq hr _ hf
    rcases State.tick_cases hq with ⟨hd, _⟩ | ⟨w', l, hd, ho, _⟩ | ⟨w', l, hd, _, ht⟩
    · simp [hr] at hd
    · simp at hf
      simp [hf] at ho
    · rw [hr] at hd
      obtain ⟨rfl, rfl⟩ := List.cons.inj hd
      rw [State.ticks, ht, State.ticks_idle rfl]
      simp [State.sent]
  | cons v sent ih =>
    intro s q w later hq hr hok hf
    have h0 := hok 0 (by simp)
    rcases State.tick_cases hq with ⟨hd, _⟩ | ⟨w', l, hd, _, ht⟩ | ⟨w', l, hd, ho, _⟩
    · simp [hr] at hd
    · rw [hr] at hd
      obtain ⟨rfl, rfl⟩ := List.cons.inj hd
      rw [List.cons_append, List.length_cons, State.ticks, ht]
      rw [ih (q := { q with index := q.index + 1 }) rfl (drop_succ_of_drop hr)]
      · rw [State.sent_cons _ _ h0]
        have : q.index + 1 + sent.length + 1 = q.index + (sent.length + 1) + 1 := by omega
        simp only [this, List.length_cons]
        rfl
      · intro k hk
        have := hok (k + 1) (by simp; omega)
        rw [← State.answerAt_memWrite v s k] at this
        exact this
      · have := hf
        rw [List.length_cons, ← State.answerAt_memWrite v s] at this
        exact this
    · simp [h0] at ho

/-- Words whose answers are to come all succeed, or one of them is the first to fail. -/
theorem State.ok_or_fail (s : State) (ws : List Word) :
    s.AllOk ws.length ∨ ∃ sent w later, ws = sent ++ w :: later ∧ s.AllOk sent.length ∧
      (s.answerAt sent.length).isOk = false := by
  induction ws using List.reverseRecOn with
  | nil => exact .inl (by intro k hk; simp at hk)
  | append_singleton ws w ih =>
    rcases ih with h | ⟨sent, v, later, rfl, h, hf⟩
    · cases hl : (s.answerAt ws.length).isOk with
      | true =>
        refine .inl fun k hk => ?_
        simp at hk
        rcases Nat.lt_or_eq_of_le hk with hk | rfl
        · exact h k hk
        · exact hl
      | false => exact .inr ⟨ws, w, [], rfl, h, hl⟩
    · exact .inr ⟨sent, v, later ++ [w], by simp, h, hf⟩

/-- What a running sequencer comes to. -/
theorem State.drain_cases {s : State} {q : Sequencer} (h : s.seq = some q) :
    (s.AllOk (q.words.drop q.index).length ∧ s.drain = (s.sent (q.words.drop q.index)).finishOk q.staged) ∨
    ∃ sent w later, q.words.drop q.index = sent ++ w :: later ∧ s.AllOk sent.length ∧
      (s.answerAt sent.length).isOk = false ∧
      s.drain = ((s.sent sent).memWrite w).finishBusFail (q.index + sent.length + 1) := by
  have hd : s.drain = s.ticks ((q.words.drop q.index).length + 1) := by
    unfold State.drain
    rw [h]
    simp only [Sequencer.ticksLeft_eq]
  rcases s.ok_or_fail (q.words.drop q.index) with hok | ⟨sent, w, later, he, hok, hf⟩
  · exact .inl ⟨hok, hd.trans (State.ticks_ok _ h rfl hok)⟩
  · refine .inr ⟨sent, w, later, he, hok, hf, ?_⟩
    rw [hd, he]
    exact State.ticks_fail sent h he hok hf

/-- After a drain the sequencer is idle. -/
@[simp] theorem State.drain_seq (s : State) : s.drain.seq = none := by
  cases h : s.seq with
  | none => rw [State.drain_idle h, h]
  | some q =>
    rcases State.drain_cases h with ⟨_, hd⟩ | ⟨_, _, _, _, _, _, hd⟩ <;> rw [hd] <;> rfl

@[simp] theorem State.drain_drain (s : State) : s.drain.drain = s.drain := State.drain_idle s.drain_seq

@[simp] theorem State.drain_mclk (s : State) : s.drain.mclk = s.mclk := by
  cases h : s.seq with
  | none => rw [State.drain_idle h]
  | some q =>
    rcases State.drain_cases h with ⟨_, hd⟩ | ⟨_, _, _, _, _, _, hd⟩ <;> rw [hd] <;> rfl

@[simp] theorem State.drain_inputs (s : State) : s.drain.inputs = s.inputs := by
  cases h : s.seq with
  | none => rw [State.drain_idle h]
  | some q =>
    rcases State.drain_cases h with ⟨_, hd⟩ | ⟨_, _, _, _, _, _, hd⟩ <;> rw [hd] <;> rfl

/-! ### The command frame -/

theorem State.runCommand_drain (cmd : Instr) (body : Shadow → Body) (s : State) :
    s.runCommand cmd body = s.drain.runCommand cmd body := by
  simp only [State.runCommand, State.drain_drain]

/-- A command whose argument is refused. -/
theorem State.runCommand_invalid {cmd : Instr} {body : Shadow → Body} {s : State} {v : Rat} (hi : s.Idle)
    (hb : body s.shadow = .invalidArg v) : s.runCommand cmd body = s.invalidAfter v := by
  simp only [State.runCommand, State.drain_idle hi, hb]
  simp [State.openSession, State.finishInvalidArg, State.finish, State.invalidAfter, codeInvalidArg]

/-- A command that finds the value in the shadow already. -/
theorem State.runCommand_unchanged {cmd : Instr} {body : Shadow → Body} {s : State} (hi : s.Idle)
    (hb : body s.shadow = .unchanged) : s.runCommand cmd body = s.unchangedAfter := by
  simp only [State.runCommand, State.drain_idle hi, hb]
  simp [State.openSession, State.finishUnchanged, State.finish, State.unchangedAfter, codeUnchanged]

/-- A command with a word list: it commits, or it stops at the first word that fails. -/
theorem State.runCommand_writes {cmd : Instr} {body : Shadow → Body} {s : State} {ws : List Word} {sh : Shadow}
    (hi : s.Idle) (hb : body s.shadow = .writes ws sh) :
    (s.AllOk ws.length ∧ s.runCommand cmd body = s.okAfter ws sh) ∨
    ∃ sent w later, ws = sent ++ w :: later ∧ s.AllOk sent.length ∧ (s.answerAt sent.length).isOk = false ∧
      s.runCommand cmd body = s.busFailAfter sent w := by
  have hr : s.runCommand cmd body = (s.openSession.load cmd ws sh).drain := by
    simp only [State.runCommand, State.drain_idle hi, hb]
  have ha : ∀ k, (s.openSession.load cmd ws sh).answerAt k = s.answerAt k :=
    fun k => State.answerAt_congr rfl rfl k
  have hq : (s.openSession.load cmd ws sh).seq = some ⟨cmd, sh, ws, 0⟩ := rfl
  rcases State.drain_cases hq with ⟨hok, hd⟩ | ⟨sent, w, later, he, hok, hf, hd⟩
  · refine .inl ⟨fun k hk => ?_, ?_⟩
    · rw [← ha k]
      exact hok k hk
    · rw [hr, hd]
      simp [State.sent, State.finishOk, State.finish, State.okAfter, okEvents, codeOk, State.openSession, State.load]
  · refine .inr ⟨sent, w, later, he, fun k hk => ?_, ?_, ?_⟩
    · rw [← ha k]
      exact hok k hk
    · rw [← ha]
      exact hf
    · rw [hr, hd]
      have h0 : ((s.openSession.load cmd ws sh).sent sent).answerAt 0 = s.answerAt sent.length := by
        simp [State.answerAt, State.sent, State.openSession, State.load]
      rw [ha] at hf
      simp only [State.finishBusFail, State.memWrite, h0, hf]
      simp [State.sent, State.finish, State.busFailAfter, failEvents, codeBusFail, State.openSession, State.load]
      omega

/-- A command with a word list whose words all succeed. -/
theorem State.runCommand_ok {cmd : Instr} {body : Shadow → Body} {s : State} {ws : List Word} {sh : Shadow}
    (hi : s.Idle) (hb : body s.shadow = .writes ws sh) (hok : s.AllOk ws.length) :
    s.runCommand cmd body = s.okAfter ws sh := by
  rcases State.runCommand_writes (cmd := cmd) hi hb with ⟨_, h⟩ | ⟨sent, w, later, rfl, _, hf, _⟩
  · exact h
  · have := hok sent.length (by simp)
    simp [hf] at this

/-- A command with a word list that fails at `w` after `sent`. -/
theorem State.runCommand_fail {cmd : Instr} {body : Shadow → Body} {s : State} {sent later : List Word} {w : Word}
    {sh : Shadow} (hi : s.Idle) (hb : body s.shadow = .writes (sent ++ w :: later) sh) (hok : s.AllOk sent.length)
    (hf : (s.answerAt sent.length).isOk = false) : s.runCommand cmd body = s.busFailAfter sent w := by
  rcases State.runCommand_writes (cmd := cmd) hi hb with ⟨h, _⟩ | ⟨sent', w', later', he, hok', hf', h⟩
  · have := h sent.length (by simp)
    simp [hf] at this
  · have hl : sent.length = sent'.length := by
      rcases Nat.lt_trichotomy sent.length sent'.length with hlt | heq | hlt
      · have := hok' _ hlt
        simp [hf] at this
      · exact heq
      · have := hok _ hlt
        simp [hf'] at this
    obtain ⟨rfl, hc⟩ := List.append_inj he hl
    obtain ⟨rfl, _⟩ := List.cons.inj hc
    exact h

/-- An illegal command. -/
theorem State.reportIllegal_idle {s : State} (hi : s.Idle) (c : Code) : s.reportIllegal c = s.illegalAfter c := by
  simp [State.reportIllegal, State.drain_idle hi, State.illegalAfter, codeIllegalCmd]

/-- A word that reaches the chip by itself. -/
theorem State.deliver_cases (o : OutWord) (s : State) :
    (∃ c, s.drain.chip = .live c ∧ s.deliver o = .next { s.drain with chip := c.receive o }) ∨
    ∃ f, s.drain.chip = .stopped f ∧ s.deliver o = .fault f := by
  unfold State.deliver
  cases h : s.drain.chip with
  | live c => exact .inl ⟨c, rfl, rfl⟩
  | stopped f => exact .inr ⟨f, rfl, rfl⟩

end Sys2Proof.Machine
end

