-- ==== Sys2Proof/Laws/PerInstr.lean ====
section
/-! SUPPORT. The statements made of every instruction, one lemma for each constructor. The family `TableRow`: an instruction's
encoding lies in its own row of spec/opcode_table.json, that is, under the row's mask it equals the row's match (R78). -/

namespace Sys2Proof.Laws.TableRow

/-- The encoding of `i` is a command whose code under `mask` is `val`. -/
def InRow8 (i : Instr) (val mask : Code) : Prop :=
  match encode i with
  | .cmd c _ => c &&& mask = val
  | .word _ => False

/-- The encoding of `i` is a word that under `mask` is `val`. -/
def InRow16 (i : Instr) (val mask : Word) : Prop :=
  match encode i with
  | .cmd _ _ => False
  | .word w => w &&& mask = val

/-- The match and the mask of each row (R78). -/
def Statement (i : Instr) : Prop :=
  match i with
  | .init => InRow8 i 0x10#8 0xFF#8
  | .setfreq _ _ => InRow8 i 0x28#8 0xFB#8
  | .setfreqA _ => InRow8 i 0x20#8 0xFF#8
  | .setphase _ _ => InRow8 i 0x38#8 0xFB#8
  | .setphaseA _ => InRow8 i 0x30#8 0xFF#8
  | .togglef => InRow8 i 0x40#8 0xFF#8
  | .togglep => InRow8 i 0x50#8 0xFF#8
  | .setwave _ => InRow8 i 0x60#8 0xFC#8
  | .wCtrl _ => InRow16 i 0x0000#16 0xC000#16
  | .wFreq0 _ => InRow16 i 0x4000#16 0xC000#16
  | .wFreq1 _ => InRow16 i 0x8000#16 0xC000#16
  | .wPhase0 _ _ => InRow16 i 0xC000#16 0xE000#16
  | .wPhase1 _ _ => InRow16 i 0xE000#16 0xE000#16

theorem init : Statement .init := rfl

theorem setfreq (slot : Slot) (hz : Rat) : Statement (.setfreq slot hz) := by cases slot <;> rfl

theorem setfreqA (hz : Rat) : Statement (.setfreqA hz) := rfl

theorem setphase (slot : Slot) (deg : Rat) : Statement (.setphase slot deg) := by cases slot <;> rfl

theorem setphaseA (deg : Rat) : Statement (.setphaseA deg) := rfl

theorem togglef : Statement .togglef := rfl

theorem togglep : Statement .togglep := rfl

theorem setwave (shape : Wave) : Statement (.setwave shape) := by cases shape <;> rfl

/-- A two-bit tag above a 14-bit payload is what the tag's mask keeps. -/
theorem tag2 (t : BitVec 2) (d : Half) : (t ++ d : BitVec 16) &&& 0xC000#16 = t ++ 0#14 := by
  apply BitVec.eq_of_getLsbD_eq
  intro k hk
  simp only [BitVec.getLsbD_and, BitVec.getLsbD_append]
  interval_cases k <;> simp

/-- A three-bit tag above bit 12 and a 12-bit payload is what the tag's mask keeps. -/
theorem tag3 (t : BitVec 3) (x : BitVec 1) (p : Phase) :
    (t ++ x ++ p : BitVec 16) &&& 0xE000#16 = t ++ 0#1 ++ 0#12 := by
  apply BitVec.eq_of_getLsbD_eq
  intro k hk
  simp only [BitVec.getLsbD_and, BitVec.getLsbD_append]
  interval_cases k <;> simp

theorem wCtrl (c : Half) : Statement (.wCtrl c) := tag2 0b00#2 c

theorem wFreq0 (d : Half) : Statement (.wFreq0 d) := tag2 0b01#2 d

theorem wFreq1 (d : Half) : Statement (.wFreq1 d) := tag2 0b10#2 d

theorem wPhase0 (x : BitVec 1) (p : Phase) : Statement (.wPhase0 x p) := tag3 0b110#3 x p

theorem wPhase1 (x : BitVec 1) (p : Phase) : Statement (.wPhase1 x p) := tag3 0b111#3 x p

end Sys2Proof.Laws.TableRow
end

