-- ==== Sys2Proof/Tests/Slice0.lean ====
section
/-! SUPPORT. Small tests, each on one step, with results taken from spec/95_test_vectors.md (the section stands in the comment) or
from the rule named; and for each statement with hypotheses a witness that meets them. -/

namespace Sys2Proof.Tests

open Sys2Proof Sys2Proof.Machine

/-- The example clock 2^28 Hz of spec/95_test_vectors.md. -/
def clock28 : Clock := ⟨268435456, by decide⟩

/-- The example clock 25 MHz of spec/95_test_vectors.md. -/
def clock25 : Clock := ⟨25000000, by decide⟩

/-- The chip with all registers 0 and nothing pending. -/
def chipZero : ChipRegs := ⟨0#14, 0#28, 0#28, 0#12, 0#12, none⟩

/-- The state `Z` of spec/95_test_vectors.md: after an INIT that ended OK, ten transfers to come succeeding. -/
def z : State :=
  { State.reset with
    shadow := { Shadow.powerOn with synced := true }
    status := 0#3
    mclk := clock28
    chip := .live chipZero
    answers := List.replicate 10 .ok }

/-- `Z` with another control word and FREQ[0]. -/
def zWith (ctrl : Word) (freq0 : Freq) (wave : Wave) : State :=
  { z with shadow := { z.shadow with ctrl := ctrl, freq0 := freq0, wave := wave } }

/-- `Z` with the transfer after the first `n` failing. -/
def zFail (n : Nat) (a : Answer) : State := { z with answers := List.replicate n .ok ++ [a] }

/-- `Z` with chip registers. -/
def zChip (c : ChipRegs) : State := { z with chip := .live c }

/-- The state an outcome holds, if it is a next state. -/
def after : Host.Outcome State Fault Refusal → State
  | .next t => t
  | .fault _ => State.reset
  | .refused _ => State.reset

/-- Whether an outcome is a next state. -/
def completes : Host.Outcome State Fault Refusal → Bool
  | .next _ => true
  | .fault _ => false
  | .refused _ => false

/-- Whether an outcome is the fault `f`. -/
def faultsWith (f : Fault) : Host.Outcome State Fault Refusal → Bool
  | .next _ => false
  | .fault g => g == f
  | .refused _ => false

/-- The words of one command's trace and its status, from a state with an empty trace. -/
def wordsAndStatus (o : Host.Outcome State Fault Refusal) : List Word × BitVec 3 := (wordsOf (after o).trace, (after o).status)

/-! ### Well-formedness: one ill-formed term for each check -/

theorem test_wf_ctrl_reserved : (Instr.wCtrl 0x0200#14).wellFormed = false := by decide
theorem test_wf_ctrl_allowed : (Instr.wCtrl 0x2100#14).wellFormed = true := by decide
theorem test_wf_phase0_bit12 : (Instr.wPhase0 1#1 0x123#12).wellFormed = false := by decide
theorem test_wf_phase1_bit12 : (Instr.wPhase1 1#1 0x123#12).wellFormed = false := by decide

/-! ### Decoding, one word of each row, written out from R78 and R62 -/

theorem test_decode_init : decodeTableWord 8 0b00010000 = some .init := by decide
theorem test_decode_setfreq0 : decodeTableWord 8 0b00101000 = some (.setfreq .s0 0) := by decide
theorem test_decode_setfreq1 : decodeTableWord 8 0b00101100 = some (.setfreq .s1 0) := by decide
theorem test_decode_setfreqA : decodeTableWord 8 0b00100000 = some (.setfreqA 0) := by decide
theorem test_decode_setphase0 : decodeTableWord 8 0b00111000 = some (.setphase .s0 0) := by decide
theorem test_decode_setphase1 : decodeTableWord 8 0b00111100 = some (.setphase .s1 0) := by decide
theorem test_decode_setphaseA : decodeTableWord 8 0b00110000 = some (.setphaseA 0) := by decide
theorem test_decode_togglef : decodeTableWord 8 0b01000000 = some .togglef := by decide
theorem test_decode_togglep : decodeTableWord 8 0b01010000 = some .togglep := by decide
theorem test_decode_setwave_sine : decodeTableWord 8 0b01100000 = some (.setwave .sine) := by decide
theorem test_decode_setwave_square : decodeTableWord 8 0b01100011 = some (.setwave .square) := by decide
theorem test_decode_wCtrl : decodeTableWord 16 0b0010000100000000 = some (.wCtrl 0x2100#14) := by decide
theorem test_decode_wFreq0 : decodeTableWord 16 0b0110100111110001 = some (.wFreq0 0x29F1#14) := by decide
theorem test_decode_wFreq1 : decodeTableWord 16 0b1011111111111111 = some (.wFreq1 0x3FFF#14) := by decide
theorem test_decode_wPhase0 : decodeTableWord 16 0b1100010000000000 = some (.wPhase0 0#1 0x400#12) := by decide
theorem test_decode_wPhase1 : decodeTableWord 16 0b1111000100100011 = some (.wPhase1 1#1 0x123#12) := by decide

/-- Section 2.2, the illegal codes sampled there, each refused for its reason. -/
theorem test_illegal_reserved :
    [0x00#8, 0x01#8, 0x70#8, 0x8F#8, 0xFF#8].all (fun c => decodeCmd c 0 matches .error .reservedOp) = true := by decide
theorem test_illegal_must_be_zero :
    [0x11#8, 0x18#8, 0x29#8, 0x2B#8, 0x3D#8, 0x41#8, 0x48#8, 0x54#8, 0x64#8, 0x68#8].all
      (fun c => decodeCmd c 0 matches .error .mustBeZero) = true := by decide
theorem test_illegal_slot :
    [0x24#8, 0x34#8].all (fun c => decodeCmd c 0 matches .error .slotNotExplicit) = true := by decide

/-! ### The encoder (section 2.1) -/

theorem test_freq_1000_at_25MHz : frequencyToRegister clock25 1000 = 0x00029F1#28 := by decide
theorem test_freq_fraction : frequencyToRegister clock25 (mkRat 100001 100) = 0x00029F1#28 := by decide
theorem test_freq_floor_not_round : frequencyToRegister clock25 100000 = 0x010624D#28 := by decide
theorem test_freq_saturates : frequencyToRegister clock28 268435456 = 0xFFFFFFF#28 := by decide
theorem test_freq_invalid : [-1, 268435457].all (fun q => !freqValid clock28 q) = true := by decide
theorem test_phase_90 : phaseToRegister 90 = 0x400#12 := by decide
theorem test_phase_360 : phaseToRegister 360 = 0x000#12 := by decide
theorem test_phase_largest : phaseToRegister (mkRat 35995 100) = 0xFFF#12 := by decide
theorem test_phase_invalid : [mkRat (-1) 2, mkRat 721 2].all (fun q => !phaseValid q) = true := by decide
theorem test_split : (lower14 0x205C9#28, upper14 0x205C9#28) = (0x05C9#14, 0x0008#14) := by decide
theorem test_words :
    (ctrlWord 0x2100#16, freqWord .s1 0x3FFF#14, phaseWord .s1 0xFFF#12) = (0x2100#16, 0xBFFF#16, 0xEFFF#16) := by decide

/-! ### Commands, at most two tests each -/

/-- Section 2.3, first row. -/
theorem test_init : wordsAndStatus (exec .init z) =
    ([0x0100#16, 0x2100#16, 0x4000#16, 0x4000#16, 0x2100#16, 0x8000#16, 0x8000#16, 0xC000#16, 0xE000#16, 0x0000#16], 0#3) := by
  decide

/-- Section 2.3, last row: a failure at word 4 keeps the shadow but for SYNCED, and reports k = 4. -/
theorem test_init_fails : let t := after (exec .init { zFail 3 .failedLost with shadow := (zWith 0x0028#16 5#28 .square).shadow })
    (t.shadow, t.responses) = (⟨0x0028#16, 5#28, 0#28, 0#12, 0#12, .square, false⟩, [⟨3#3, .wordIndex 4⟩]) := by decide

/-- Section 2.4: full shape, with FSELECT, PSELECT and the waveform kept. -/
theorem test_setfreq_full : wordsAndStatus (exec (.setfreq .s0 5592405) (zWith 0x0C28#16 0x123ABCD#28 .square)) =
    ([0x2C28#16, 0x5555#16, 0x4155#16], 0#3) := by decide

/-- Section 2.4: upper-only shape. -/
theorem test_setfreq_upper : let t := after (exec (.setfreq .s0 11037645) (zWith 0x0028#16 0x123ABCD#28 .square))
    (wordsOf t.trace, t.shadow.ctrl, t.shadow.freq0) = ([0x1028#16, 0x42A1#16], 0x1028#16, 0x0A86BCD#28) := by decide

/-- Section 2.5: the active register is FREQ1. -/
theorem test_setfreqA : let t := after (exec (.setfreqA 5) (zWith 0x0800#16 0#28 .sine))
    (wordsOf t.trace, t.shadow.freq0, t.shadow.freq1) = ([0x0800#16, 0x8005#16], 0#28, 5#28) := by decide

/-- Section 2.5: an argument out of range. -/
theorem test_setfreqA_invalid : let t := after (exec (.setfreqA (-3)) (zWith 0x0800#16 0#28 .sine))
    (t.trace, t.responses) = ([.sessionBegin, .sessionEnd], [⟨2#3, .argument (-3)⟩]) := by decide

/-- Section 2.6: `CTRL` is neither read nor written. -/
theorem test_setphase : let t := after (exec (.setphase .s0 270) (zWith 0x3000#16 0#28 .sine))
    (wordsOf t.trace, t.shadow.ctrl, t.shadow.phase0) = ([0xCC00#16], 0x3000#16, 0xC00#12) := by decide

/-- Section 2.6: 360 degrees is 0, which the shadow holds. -/
theorem test_setphase_360 : wordsAndStatus (exec (.setphase .s0 360) z) = ([], 1#3) := by decide

/-- Section 2.6: the active register is PHASE1. -/
theorem test_setphaseA : let t := after (exec (.setphaseA 180) (zWith 0x0400#16 0#28 .sine))
    (wordsOf t.trace, t.shadow.phase0, t.shadow.phase1) = ([0xE800#16], 0#12, 0x800#12) := by decide

/-- Section 2.6: a failure at word 1. -/
theorem test_setphaseA_fails : let t := after (exec (.setphaseA 90) (zFail 0 .failedLost))
    (t.trace, t.status, t.shadow.phase0, t.shadow.synced) =
      ([.sessionBegin, .write 0xC400#16 false, .sessionEnd], 3#3, 0#12, false) := by decide

/-- Section 2.7: sticky B28 and the waveform are sent again. -/
theorem test_togglef : wordsAndStatus (exec .togglef (zWith 0x2C28#16 0#28 .square)) = ([0x2428#16], 0#3) := by decide

/-- Section 2.7: sticky HLB is sent again. -/
theorem test_togglep : wordsAndStatus (exec .togglep (zWith 0x1000#16 0#28 .sine)) = ([0x1400#16], 0#3) := by decide

/-- Section 2.8. -/
theorem test_setwave : let t := after (exec (.setwave .triangle) (zWith 0x2C28#16 0#28 .square))
    (wordsOf t.trace, t.shadow.ctrl, t.shadow.wave) = ([0x2C02#16], 0x2C02#16, .triangle) := by decide

/-- Section 2.8: the current shape. -/
theorem test_setwave_unchanged : wordsAndStatus (exec (.setwave .square) (zWith 0x2C28#16 0#28 .square)) = ([], 1#3) := by decide

/-- Section 3, program P3 step 4: no session, and the code reported. -/
theorem test_illegal_step : let t := after (step { z with inputs := [.cmd 0x24#8 5] })
    (t.trace, t.responses, t.status) = ([], [⟨4#3, .commandCode 0x24#8⟩], 4#3) := by decide

/-! ### The reference chip model (section 2.10) -/

/-- A pair under B28: 0x4001 after 0x4000 latches 0x4000. -/
theorem test_chip_pair : (after (exec (.wFreq0 1#14) (zChip ⟨0x2000#14, 0x3FFF#28, 0#28, 0#12, 0#12, some (.s0, 0#14)⟩))).chip =
    .live ⟨0x2000#14, 0x4000#28, 0#28, 0#12, 0#12, none⟩ := by decide

/-- Upper-only. -/
theorem test_chip_upper : (after (exec (.wFreq0 0x2A1#14) (zChip ⟨0x1028#14, 0x123ABCD#28, 0#28, 0#12, 0#12, none⟩))).chip =
    .live ⟨0x1028#14, 0x0A86BCD#28, 0#28, 0#12, 0#12, none⟩ := by decide

/-- Lower-only, on the other slot. -/
theorem test_chip_lower : (after (exec (.wFreq1 1#14) (zChip ⟨0x0028#14, 0#28, 0x123ABCD#28, 0#12, 0#12, none⟩))).chip =
    .live ⟨0x0028#14, 0#28, 0x1238001#28, 0#12, 0#12, none⟩ := by decide

/-- R58 (a). -/
theorem test_chip_other_slot : (after (exec (.wFreq1 1#14) (zChip ⟨0x2000#14, 0#28, 0#28, 0#12, 0#12, some (.s0, 0#14)⟩))).chip =
    .stopped .otherSlotPending := by decide

/-- R53: a control word leaves the pending half. -/
theorem test_chip_ctrl : (after (exec (.wCtrl 0x100#14) (zChip ⟨0x2000#14, 0#28, 0#28, 0#12, 0#12, some (.s0, 7#14)⟩))).chip =
    .live ⟨0x100#14, 0#28, 0#28, 0#12, 0#12, some (.s0, 7#14)⟩ := by decide

/-- R57: bit 12 is ignored. -/
theorem test_chip_phase0 : (after (exec (.wPhase0 1#1 0x123#12) z)).chip = .live ⟨0#14, 0#28, 0#28, 0x123#12, 0#12, none⟩ := by
  decide

/-- R57. -/
theorem test_chip_phase1 : (after (exec (.wPhase1 0#1 0x800#12) z)).chip = .live ⟨0#14, 0#28, 0#28, 0#12, 0x800#12, none⟩ := by
  decide

/-- A stopped chip takes no word. -/
theorem test_chip_stopped : faultsWith .pairHalfDone (exec (.wCtrl 0#14) { z with chip := .stopped .pairHalfDone }) = true := by
  decide

/-- Program P4 step 2, reading (i): the failed third word did not reach the chip. -/
theorem test_chip_failed_lost : (after (exec (.setfreq .s0 20000) (zFail 2 .failedLost))).chip =
    .live ⟨0x2000#14, 0#28, 0#28, 0#12, 0#12, some (.s0, 0x0E20#14)⟩ := by decide

/-- Program P4 step 2, reading (ii): it did. -/
theorem test_chip_failed_landed : (after (exec (.setfreq .s0 20000) (zFail 2 .failedLanded))).chip =
    .live ⟨0x2000#14, 0x4E20#28, 0#28, 0#12, 0#12, none⟩ := by decide

/-- Program P4 step 3, reading (i): INIT ends OK and the reference model has stopped. -/
theorem test_chip_stale_pair :
    let t := after (exec .init (zChip ⟨0x2000#14, 0#28, 0#28, 0#12, 0#12, some (.s0, 0x0E20#14)⟩))
    (t.chip, t.status, t.shadow.synced) = (.stopped .otherSlotPending, 0#3, true) := by decide

/-! ### The first instruction after reset, the textual form, several blocks -/

theorem test_first_after_reset : [0x10, 0x20, 0x28, 0x30, 0x3C, 0x40, 0x50, 0x63].all
    (fun w => completes (step (State.reset.withFetchWord 8 w))) = true := by decide
theorem test_first_word_after_reset : [0x0000, 0x4000, 0x8000, 0xC000, 0xE000].all
    (fun w => completes (step (State.reset.withFetchWord 16 w))) = true := by decide

/-- R76. -/
theorem test_assemble_setfreq : Asm.assemble "SetFreq f0, 1000.01 ; comment".toList = some (.setfreq .s0 (mkRat 100001 100)) := by
  decide
theorem test_assemble_fraction : Asm.assemble "setphase -1/2".toList = some (.setphaseA (mkRat (-1) 2)) := by decide
theorem test_assemble_shape : Asm.assemble "setwave square_div2".toList = some (.setwave .squareDiv2) := by decide
theorem test_assemble_wrong_register : Asm.assemble "setphase f0, 3".toList = none := by decide

/-- R127: a zero clock is refused. -/
theorem test_zero_clock_refused : (Clock.make 0).isNone = true := by decide

/-! ### Witnesses: states and operands that meet a statement's hypotheses -/

theorem witness_StepRunsDecoded :
    { z with inputs := [.cmd 0x28#8 5] }.inputs = .cmd 0x28#8 5 :: [] ∧ decode (.cmd 0x28#8 5) = .ok (.setfreq .s0 5) := ⟨rfl, rfl⟩
theorem witness_StepReportsIllegal :
    let s := { z with inputs := [.cmd 0x24#8 5] }
    s.Idle ∧ s.inputs = .cmd 0x24#8 5 :: [] ∧ legal 0x24#8 = false := ⟨rfl, rfl, by decide⟩
theorem witness_StepReportsIllegal_accepted : z.Idle ∧ Instr.init.isCommand = true ∧ exec .init z = .next (after (exec .init z)) :=
  ⟨rfl, rfl, rfl⟩
theorem witness_IdleStepWaits : z.Idle ∧ z.inputs = [] := ⟨rfl, rfl⟩
theorem witness_ClockNeverWritten : step { z with inputs := [.cmd 0x40#8 0] } =
    .next (after (step { z with inputs := [.cmd 0x40#8 0] })) := rfl
theorem witness_ClockMustBePositive : (0 : Rat) < 1 ∧ (0 : Rat) ≤ 0 := by decide
theorem witness_EncodeDecode : decode (.word 0x69F1#16) = .ok (.wFreq0 0x29F1#14) ∧ decode (.cmd 0x28#8 7) = .ok (.setfreq .s0 7) ∧
    decode (.cmd 0x40#8 7) = .ok .togglef := ⟨rfl, rfl, rfl⟩
theorem witness_FrequencyIsFloor : ((0 : Rat) ≤ 0 ∧ 0 ≤ clock25.hz) ∧ 0 ≤ clock25.hz ∧ clock25.hz ≤ clock25.hz := by decide
theorem witness_PhaseIsFloor : ((0 : Rat) ≤ 0 ∧ (0 : Rat) ≤ 360) ∧ (0 : Rat) ≤ 360 ∧ (360 : Rat) ≤ 360 := by decide
theorem witness_FrequencyMonotone : (0 : Rat) ≤ 1 ∧ (1 : Rat) ≤ 25000000 ∧ 25000000 ≤ clock25.hz := by decide
theorem witness_PhaseMonotone : (0 : Rat) ≤ 0 ∧ (0 : Rat) ≤ 359 ∧ (359 : Rat) < 360 := by decide
theorem witness_InitRule_ok : z.Idle ∧ z.AllOk 10 := by decide
theorem witness_InitRule_first_word_fails :
    let s := zFail 0 .failedLost
    s.Idle ∧ s.AllOk 0 ∧ (s.answerAt 0).isOk = false := by decide
theorem witness_InitRule_last_word_fails :
    let s := zFail 9 .failedLanded
    s.Idle ∧ s.AllOk 9 ∧ (s.answerAt 9).isOk = false := by decide
theorem witness_TransactionShape : (0x4000#28 : Freq) ≠ 0x3FFF#28 := by decide
theorem witness_SetfreqLowerOnly :
    z.Idle ∧ z.AllOk 2 ∧ (0 : Rat) ≤ 5 ∧ 5 ≤ z.mclk.hz ∧ 5#28 = frequencyToRegister z.mclk 5 ∧ 5#28 ≠ z.shadow.freq .s0 ∧
      (5#28).extractLsb' 14 14 = (z.shadow.freq .s0).extractLsb' 14 14 ∧ 0#16 = z.shadow.ctrl &&& 0xCFFF#16 := by decide
theorem witness_SetfreqLowerOnly_active :
    let s := zWith 0x0800#16 0#28 .sine
    (Slot.s1 = if s.shadow.ctrl.getLsbD 11 then .s1 else .s0) ∧ s.Idle ∧ s.AllOk 2 ∧ 5#28 = frequencyToRegister s.mclk 5 ∧
      5#28 ≠ s.shadow.freq .s1 := by decide
theorem witness_SetfreqUpperOnly :
    z.Idle ∧ z.AllOk 2 ∧ (0 : Rat) ≤ 16384 ∧ 16384 ≤ z.mclk.hz ∧ 16384#28 = frequencyToRegister z.mclk 16384 ∧
      16384#28 ≠ z.shadow.freq .s0 ∧ (16384#28).extractLsb' 0 14 = (z.shadow.freq .s0).extractLsb' 0 14 := by decide
theorem witness_SetfreqFull :
    z.Idle ∧ z.AllOk 3 ∧ 0 ≤ z.mclk.hz ∧ z.mclk.hz ≤ z.mclk.hz ∧ 0xFFFFFFF#28 = frequencyToRegister z.mclk z.mclk.hz ∧
      (0xFFFFFFF#28).extractLsb' 14 14 ≠ (z.shadow.freq .s0).extractLsb' 14 14 ∧
      (0xFFFFFFF#28).extractLsb' 0 14 ≠ (z.shadow.freq .s0).extractLsb' 0 14 := by decide
theorem witness_ActiveFormsResolve : z.Idle := rfl
theorem witness_SetphaseWrites :
    z.Idle ∧ (0 : Rat) ≤ 90 ∧ (90 : Rat) ≤ 360 ∧ 0x400#12 = phaseToRegister 90 ∧ 0x400#12 ≠ z.shadow.phase .s0 ∧ z.AllOk 1 := by decide
theorem witness_SetphaseWrites_active_fails :
    let s := { zWith 0x0400#16 0#28 .sine with answers := [.failedLost] }
    (Slot.s1 = if s.shadow.ctrl.getLsbD 10 then .s1 else .s0) ∧ s.Idle ∧ 0x400#12 ≠ s.shadow.phase .s1 ∧
      (s.answerAt 0).isOk = false := by decide
theorem witness_TogglefRule : (z.Idle ∧ z.AllOk 1) ∧ (zFail 0 .failedLost).Idle ∧ ((zFail 0 .failedLost).answerAt 0).isOk = false := by
  decide
theorem witness_TogglepRule : (z.Idle ∧ z.AllOk 1) ∧ (zFail 0 .failedLanded).Idle ∧
    ((zFail 0 .failedLanded).answerAt 0).isOk = false := by decide
theorem witness_SetwaveRule : z.Idle ∧ Wave.square ≠ z.shadow.wave ∧ z.AllOk 1 ∧
    (Wave.square, 0x0028#16) ∈ [(Wave.sine, 0x0000#16), (Wave.triangle, 0x0002#16), (Wave.squareDiv2, 0x0020#16),
      (Wave.square, 0x0028#16)] := ⟨rfl, by decide, by decide, by simp⟩
theorem witness_SetwaveRule_fails : (zFail 0 .failedLost).Idle ∧ Wave.triangle ≠ (zFail 0 .failedLost).shadow.wave ∧
    ((zFail 0 .failedLost).answerAt 0).isOk = false := by decide
theorem witness_TogglesRestore : z.Idle ∧ z.AllOk 2 ∧ exec .togglef z = .next (after (exec .togglef z)) ∧
    exec .togglef (after (exec .togglef z)) = .next (after (exec .togglef (after (exec .togglef z)))) :=
  ⟨rfl, by decide, rfl, rfl⟩
theorem witness_InvalidArgument : z.Idle ∧ (-1 : Rat) < 0 ∧ z.mclk.hz < 268435457 ∧ (360 : Rat) < 361 := by decide
theorem witness_UnchangedValue : z.Idle ∧ ((0 : Rat) ≤ 0 ∧ 0 ≤ z.mclk.hz ∧ frequencyToRegister z.mclk 0 = z.shadow.freq .s0) ∧
    (0 : Rat) ≤ 360 ∧ (360 : Rat) ≤ 360 ∧ phaseToRegister 360 = z.shadow.phase .s1 := by decide
theorem witness_BusFailStopsAtOnce : let s := zFail 2 .failedLost
    s.Idle ∧ (Instr.setfreq .s0 20000).isCommand = true ∧ exec (.setfreq .s0 20000) s = .next (after (exec (.setfreq .s0 20000) s)) ∧
      (after (exec (.setfreq .s0 20000) s)).status = 3#3 := ⟨rfl, rfl, rfl, by decide⟩
theorem witness_AnyWordCanFail : let s := zFail 0 .failedLost
    s.Idle ∧ z.Idle ∧ z.AllOk 10 ∧ z.shadow = s.shadow ∧ z.mclk = s.mclk ∧
      exec .togglef z = .next (z.okAfter ([] ++ 0x0800#16 :: []) { z.shadow with ctrl := 0x0800#16 }) ∧ s.AllOk 0 ∧
      (s.answerAt 0).isOk = false := ⟨rfl, rfl, by decide, rfl, rfl, rfl, by decide, by decide⟩
theorem witness_OneOutcomePerCommand : z.Idle ∧ Instr.init.isCommand = true := ⟨rfl, rfl⟩
theorem witness_OutcomesArePrecise : z.Idle ∧ exec (.setphase .s0 360) z = .next (after (exec (.setphase .s0 360) z)) ∧
    (after (exec (.setphase .s0 360) z)).status ≠ 0#3 := ⟨rfl, rfl, by decide⟩
theorem witness_WordCounts : z.Idle ∧ exec (.setfreq .s1 5) z = .next (after (exec (.setfreq .s1 5) z)) ∧
    (after (exec (.setfreq .s1 5) z)).status = 0#3 ∧ (after (exec (.setfreq .s1 5) z)).trace =
      z.trace ++ [.sessionBegin, .write 0#16 true, .write 0x8005#16 true, .sessionEnd] := ⟨rfl, rfl, by decide, by decide⟩
theorem witness_SyncedRule_StatusRule_ChipNeverRead : z.Idle ∧ Instr.togglep.isCommand = true ∧
    exec .togglep z = .next (after (exec .togglep z)) := ⟨rfl, rfl, rfl⟩
theorem witness_RegisterFrames_ControlFieldsKept : z.Idle ∧ exec (.setwave .square) z = .next (after (exec (.setwave .square) z)) ∧
    exec (.wPhase0 0#1 1#12) z = .next (after (exec (.wPhase0 0#1 1#12) z)) := ⟨rfl, rfl, rfl⟩
theorem witness_Inv : z.Inv := ⟨rfl, by decide, by decide, by decide⟩
theorem witness_StepKeepsInv_EmittedWordsAllowed : let s := { z with inputs := [.cmd 0x10#8 0] }
    s.Inv ∧ step s = .next (after (step s)) := ⟨⟨rfl, by decide, by decide, by decide⟩, rfl⟩
theorem witness_SessionsBracketed : z.Idle ∧ bracketed false z.trace = true ∧ Instr.init.isCommand = true ∧
    exec .init z = .next (after (exec .init z)) := ⟨rfl, rfl, rfl, rfl⟩
/-- Two successes to come are enough for a command of two words. -/
theorem witness_CoherenceKept : let s := { z with answers := [.ok, .ok, .failedLost] }
    s.Idle ∧ (Instr.setfreq .s0 5).isCommand = true ∧ s.Coherent ∧
      exec (.setfreq .s0 5) s = .next (after (exec (.setfreq .s0 5) s)) ∧
      (after (exec (.setfreq .s0 5) s)).trace =
        s.trace ++ [.sessionBegin, .write 0x0000#16 true, .write 0x4005#16 true, .sessionEnd] ∧
      ∀ w, Event.write w false ∉ [.sessionBegin, .write 0x0000#16 true, .write 0x4005#16 true, .sessionEnd] :=
  ⟨rfl, rfl, ⟨chipZero, by decide, by decide, rfl, rfl, rfl, rfl, rfl⟩, rfl, by decide, by simp⟩
theorem witness_InitMakesCoherent : let s := zChip ⟨0x3FFF#14, 1#28, 2#28, 3#12, 4#12, none⟩
    s.Idle ∧ s.AllOk 10 ∧ exec .init s = .next (after (exec .init s)) := ⟨rfl, by decide, rfl⟩
theorem witness_StalePairSurvivesInit : let s := zChip ⟨0x2000#14, 0#28, 0#28, 0#12, 0#12, some (.s1, 1#14)⟩
    s.Idle ∧ s.AllOk 10 ∧ exec .init s = .next (after (exec .init s)) := ⟨rfl, by decide, rfl⟩
theorem witness_ControlWord_PhaseWord_AtChip : z.Idle ∧ z.chip = .live chipZero := ⟨rfl, rfl⟩
theorem witness_FrequencyPairAtChip : let c : ChipRegs := ⟨0x2000#14, 0#28, 0#28, 0#12, 0#12, some (.s1, 1#14)⟩
    (zChip c).Idle ∧ (zChip c).chip = .live c ∧ c.ctrl.getLsbD 13 = true ∧ c.pend = some (.s1, 1#14) := by decide
theorem witness_FrequencyPair_HalfDonePair_slot0 : let c : ChipRegs := ⟨0x2000#14, 0#28, 0#28, 0#12, 0#12, some (.s0, 1#14)⟩
    (zChip c).Idle ∧ (zChip c).chip = .live c ∧ c.ctrl.getLsbD 13 = true ∧ c.pend = some (.s0, 1#14) := by decide
theorem witness_FrequencyPairAtChip_first : let c : ChipRegs := ⟨0x2000#14, 0#28, 0#28, 0#12, 0#12, none⟩
    (zChip c).chip = .live c ∧ c.ctrl.getLsbD 13 = true ∧ c.pend = none := by decide
theorem witness_FrequencyUpperAtChip : let c : ChipRegs := ⟨0x1000#14, 0#28, 0#28, 0#12, 0#12, none⟩
    (zChip c).chip = .live c ∧ c.ctrl.getLsbD 13 = false ∧ c.ctrl.getLsbD 12 = true ∧ c.pend = none := by decide
theorem witness_FrequencyLowerAtChip : let c : ChipRegs := ⟨0x0000#14, 0#28, 0#28, 0#12, 0#12, none⟩
    (zChip c).chip = .live c ∧ c.ctrl.getLsbD 13 = false ∧ c.ctrl.getLsbD 12 = false ∧ c.pend = none := by decide
theorem witness_HalfDonePairAtChip_other_slot : let c : ChipRegs := ⟨0x2000#14, 0#28, 0#28, 0#12, 0#12, some (.s1, 1#14)⟩
    (zChip c).Idle ∧ (zChip c).chip = .live c ∧ c.ctrl.getLsbD 13 = true ∧ c.pend = some (.s1, 1#14) := by decide
theorem witness_HalfDonePairAtChip : let c : ChipRegs := ⟨0x1000#14, 0#28, 0#28, 0#12, 0#12, some (.s0, 1#14)⟩
    (zChip c).chip = .live c ∧ c.ctrl.getLsbD 13 = false ∧ c.pend = some (.s0, 1#14) := by decide
theorem witness_StoppedChipFaults : { z with chip := .stopped .otherSlotPending }.Idle := rfl

/-- A sequencer in the middle of a list, with one word to go, and one past its end. -/
def busy (index : Nat) : State := { z with seq := some ⟨.togglef, { z.shadow with ctrl := 0x0800#16 }, [0x0800#16], index⟩ }
theorem witness_IndexRisesByOne : (busy 0).seq = some ⟨.togglef, { z.shadow with ctrl := 0x0800#16 }, [0x0800#16], 0⟩ ∧
    [0x0800#16][0]? = some 0x0800#16 ∧ [0x0800#16][1]? = (none : Option Word) := ⟨rfl, rfl, rfl⟩
theorem test_tick_then_commit : ((busy 0).tick.seq.map Sequencer.index, (busy 1).tick.shadow.ctrl) = (some 1, 0x0800#16) := by decide
theorem test_held_until_session_end : (after (exec .togglep (busy 0))).shadow.ctrl = 0x0C00#16 := by decide

/-- The sequencer of three words, one of them transferred already, with the answers `as` to come. -/
def busy3 (as : List Answer) : State :=
  { z with seq := some ⟨.setfreq .s0 20000, z.shadow, [0x2000#16, 0x4E20#16, 0x4001#16], 1⟩, answers := as }
theorem witness_HeldUntilSessionEnd_ok : (busy3 [.ok, .ok]).seq =
      some ⟨.setfreq .s0 20000, z.shadow, [0x2000#16, 0x4E20#16, 0x4001#16], 1⟩ ∧ (busy3 [.ok, .ok]).AllOk 2 := ⟨rfl, by decide⟩
theorem witness_HeldUntilSessionEnd_fail : [0x2000#16, 0x4E20#16, 0x4001#16].drop 1 = [0x4E20#16] ++ 0x4001#16 :: [] ∧
    (busy3 [.ok, .failedLost]).AllOk 1 ∧ ((busy3 [.ok, .failedLost]).answerAt 1).isOk = false := ⟨rfl, by decide, by decide⟩
theorem witness_HeldUntilSessionEnd_loaded : (zFail 0 .failedLost).Idle ∧ z.Idle ∧ z.AllOk 10 ∧
    z.shadow = (zFail 0 .failedLost).shadow ∧ z.mclk = (zFail 0 .failedLost).mclk ∧
    exec .togglef z = .next (z.okAfter [0x0800#16] { z.shadow with ctrl := 0x0800#16 }) := ⟨rfl, rfl, by decide, rfl, rfl, rfl⟩
/-- R27 and R108: the failed word is the third of the list, and the second was transferred before it. -/
theorem test_drain_from_the_index : ((busy3 [.ok, .failedLost]).drain.trace, (busy3 [.ok, .failedLost]).drain.responses) =
    ([.write 0x4E20#16 true, .write 0x4001#16 false, .sessionEnd], [⟨3#3, .wordIndex 3⟩]) := by decide

theorem witness_InstancesIndependent : Platform.stepAt [z, z] 1 = .next [z, after (step z)] := rfl
theorem witness_AssemblerCaseAndComment : "INIT".toList.map Char.toLower = "init".toList.map Char.toLower := by decide
theorem witness_AssemblerCaseAndComment_comment :
    Asm.assemble ("togglef ".toList ++ ';' :: " flip".toList) = Asm.assemble "togglef ".toList ∧
      Asm.assemble "togglef ".toList = some .togglef := by decide
theorem witness_AssemblerCaseAndComment_whole : IsNumber "12".toList 12 :=
  .plain "12".toList 12 (.whole [1, 2] (by decide))
theorem witness_AssemblerCaseAndComment_fraction : IsNumber "-0.5".toList (-(((0 : ℕ) : Rat) + (5 : ℕ) / 10 ^ 1)) :=
  .minus "0.5".toList _ (.fraction [0] [5] (by decide) (by decide))
theorem witness_AssemblerCaseAndComment_ratio : IsNumber "1/3".toList ((1 : ℕ) / (3 : ℕ)) :=
  .plain "1/3".toList _ (.ratio [1] [3] (by decide) (by decide) (by decide))

end Sys2Proof.Tests
end

section
/-! SUPPORT. Every command is the frame of R11 around one body, and a run that ends OK tells what that body came to. -/

namespace Sys2Proof.Machine

/-! ### The body of each command -/

/-- `Body(cmd, arg)` (R11, R12) on a block with the clock `m`. An output word is no command and has no body of its own (it is given
`.unchanged`); `exec_command` ties the eight commands' bodies to `exec`. -/
def commandBody (m : Clock) : Instr → Shadow → Body
  | .init => initBody
  | .setfreq slot hz => fun sh => setFreqBody m sh slot hz
  | .setfreqA hz => fun sh => setFreqBody m sh sh.activeFreq hz
  | .setphase slot deg => fun sh => setPhaseBody sh slot deg
  | .setphaseA deg => fun sh => setPhaseBody sh sh.activePhase deg
  | .togglef => toggleFBody
  | .togglep => togglePBody
  | .setwave shape => setWaveBody shape
  | .wCtrl _ | .wFreq0 _ | .wFreq1 _ | .wPhase0 _ _ | .wPhase1 _ _ => fun _ => .unchanged

/-- Every command runs its body in the command frame (R11). -/
theorem exec_command {i : Instr} (hc : i.isCommand = true) (s : State) :
    exec i s = .next (s.runCommand i (commandBody s.mclk i)) := by
  cases i with
  | init | setfreq | setfreqA | setphase | setphaseA | togglef | togglep | setwave => rfl
  | wCtrl | wFreq0 | wFreq1 | wPhase0 | wPhase1 => simp [Instr.isCommand] at hc

/-! ### The outcomes told apart -/

@[simp] theorem State.okAfter_status (s : State) (ws : List Word) (sh : Shadow) : (s.okAfter ws sh).status = 0#3 := rfl
@[simp] theorem State.busFailAfter_status (s : State) (sent : List Word) (w : Word) :
    (s.busFailAfter sent w).status = 3#3 := rfl
@[simp] theorem State.unchangedAfter_status (s : State) : s.unchangedAfter.status = 1#3 := rfl
@[simp] theorem State.invalidAfter_status (s : State) (value : Rat) : (s.invalidAfter value).status = 2#3 := rfl

/-- The event list of a command that ends OK shows its words. -/
theorem okEvents_injective : Function.Injective okEvents := by
  intro ws ws' h
  have hmap : ws.map (Event.write · true) = ws'.map (Event.write · true) := by simpa [okEvents] using h
  exact List.map_injective_iff.mpr (fun _ _ hw => (Event.write.inj hw).1) hmap

/-- The state after outcome OK shows the words and the shadow committed. -/
theorem State.okAfter_inj {s : State} {ws ws' : List Word} {sh sh' : Shadow} :
    s.okAfter ws sh = s.okAfter ws' sh' ↔ ws = ws' ∧ sh = sh' := by
  refine ⟨fun h => ⟨?_, congrArg State.shadow h⟩, fun ⟨hws, hsh⟩ => hws ▸ hsh ▸ rfl⟩
  have ht : s.trace ++ okEvents ws = s.trace ++ okEvents ws' := congrArg State.trace h
  exact okEvents_injective (List.append_cancel_left ht)

/-- Only a body that writes just these words and stages just this shadow ends OK with them. -/
theorem State.body_of_runCommand_ok {cmd : Instr} {body : Shadow → Body} {s : State} {ws : List Word} {sh : Shadow}
    (hi : s.Idle) (h : s.runCommand cmd body = s.okAfter ws sh) : body s.shadow = .writes ws sh := by
  have hstatus : (s.runCommand cmd body).status = 0#3 := by rw [h, State.okAfter_status]
  cases hb : body s.shadow with
  | invalidArg v => simp [State.runCommand_invalid hi hb] at hstatus
  | unchanged => simp [State.runCommand_unchanged hi hb] at hstatus
  | writes ws' sh' =>
    rcases State.runCommand_writes (cmd := cmd) hi hb with ⟨_, hr⟩ | ⟨_, _, _, _, _, _, hr⟩
    · obtain ⟨rfl, rfl⟩ := State.okAfter_inj.mp (hr.symm.trans h)
      rfl
    · simp [hr] at hstatus

/-- What a command's body came to on a block where it ended OK, it comes to on every block with that shadow and clock. -/
theorem commandBody_of_exec_ok {i : Instr} {s u : State} {ws : List Word} {sh : Shadow} (hc : i.isCommand = true)
    (hu : u.Idle) (hsh : u.shadow = s.shadow) (hm : u.mclk = s.mclk) (h : exec i u = .next (u.okAfter ws sh)) :
    commandBody s.mclk i s.shadow = .writes ws sh := by
  rw [exec_command hc] at h
  rw [← hsh, ← hm]
  exact State.body_of_runCommand_ok hu (Host.Outcome.next.inj h)

/-! ### Scope (spec/00_scope.md) -/

/-- Settles O33: the run on `u` fixes the word list, which the same body gives on `s`, and the first failing word stops the sequencer. -/
theorem anyWordCanFail : Obligations.AnyWordCanFail := by
  intro s u i sent later w sh hi hc hu _ hsh hm hex hok hf
  have hb := commandBody_of_exec_ok hc hu hsh hm hex
  rw [exec_command hc, State.runCommand_fail hi hb hok hf]

end Sys2Proof.Machine
end

section
/-! SUPPORT. What one instruction and one step can do: the outcome a command's body ends in, the shadow a body stages, and the fields of
the control word an instruction keeps. -/

namespace Sys2Proof.Machine

/-! ### The outcome of a command (R11, R104 to R108) -/

/-- `Ends s b t`: a command whose body comes to `b` on the idle block `s` ends in the state `t`. The transport's answers decide between
the two outcomes of a word list; `runCommand_eq_iff_ends` ties this to `State.runCommand`. -/
inductive Ends (s : State) : Body → State → Prop where
  | invalidArg (v : Rat) : Ends s (.invalidArg v) (s.invalidAfter v)
  | unchanged : Ends s .unchanged s.unchangedAfter
  | ok (ws : List Word) (sh : Shadow) : s.AllOk ws.length → Ends s (.writes ws sh) (s.okAfter ws sh)
  | busFail (sent later : List Word) (w : Word) (sh : Shadow) : s.AllOk sent.length →
      (s.answerAt sent.length).isOk = false → Ends s (.writes (sent ++ w :: later) sh) (s.busFailAfter sent w)

/-- From an idle block a command ends in exactly one state, the one its body and the answers lead to. -/
theorem State.runCommand_eq_iff_ends {s t : State} {cmd : Instr} {body : Shadow → Body} (hi : s.Idle) :
    s.runCommand cmd body = t ↔ Ends s (body s.shadow) t := by
  constructor
  · rintro rfl
    cases hb : body s.shadow with
    | invalidArg v => rw [State.runCommand_invalid hi hb]; exact .invalidArg v
    | unchanged => rw [State.runCommand_unchanged hi hb]; exact .unchanged
    | writes ws sh =>
      rcases State.runCommand_writes (cmd := cmd) hi hb with ⟨hok, hr⟩ | ⟨sent, w, later, rfl, hok, hf, hr⟩
      · rw [hr]; exact .ok ws sh hok
      · rw [hr]; exact .busFail sent later w sh hok hf
  · intro h
    generalize hb : body s.shadow = b at h
    cases h with
    | invalidArg v => exact State.runCommand_invalid hi hb
    | unchanged => exact State.runCommand_unchanged hi hb
    | ok ws sh hok => exact State.runCommand_ok hi hb hok
    | busFail sent later w sh hok hf => exact State.runCommand_fail hi hb hok hf

/-- `exec` of a command, on an idle block. -/
theorem exec_command_iff {i : Instr} (hc : i.isCommand = true) {s t : State} (hi : s.Idle) :
    exec i s = .next t ↔ Ends s (commandBody s.mclk i s.shadow) t := by
  rw [exec_command hc, Host.Outcome.next.injEq, State.runCommand_eq_iff_ends hi]

/-- A command leaves the clock and the command port as they were, and the sequencer idle (R36). -/
theorem Ends.frame {s t : State} {b : Body} (h : Ends s b t) : t.mclk = s.mclk ∧ t.inputs = s.inputs ∧ t.Idle := by
  cases h <;> exact ⟨rfl, rfl, rfl⟩

/-- A command gives one response and puts its code in STATUS, one of OK, UNCHANGED, INVALID_ARG and BUS_FAIL. -/
theorem Ends.response {s t : State} {b : Body} (h : Ends s b t) :
    ∃ r, t.responses = s.responses ++ [r] ∧ t.status = r.code ∧ t.status ∈ [0#3, 1#3, 2#3, 3#3] := by
  cases h <;> exact ⟨_, rfl, rfl, by simp⟩

/-- The shadow after a command is the one before, SYNCED apart, or the one its body stages. -/
theorem Ends.shadow {P : Shadow → Prop} {s t : State} {b : Body} (h : Ends s b t)
    (hkeep : ∀ f, P { s.shadow with synced := f }) (hstaged : ∀ ws sh, b = .writes ws sh → P sh) : P t.shadow := by
  cases h with
  | invalidArg | unchanged => exact hkeep s.shadow.synced
  | ok ws sh => exact hstaged ws sh rfl
  | busFail => exact hkeep false

/-! ### An output word presented by itself -/

/-- An instruction that is no command is an output word, and does what its delivery to the chip does. -/
theorem exec_outputWord {i : Instr} (hc : i.isCommand = false) : ∃ o, ∀ s, exec i s = s.deliver o := by
  cases i with
  | init | setfreq | setfreqA | setphase | setphaseA | togglef | togglep | setwave => simp [Instr.isCommand] at hc
  | wCtrl c => exact ⟨.control c, fun _ => rfl⟩
  | wFreq0 d => exact ⟨.freq .s0 d, fun _ => rfl⟩
  | wFreq1 d => exact ⟨.freq .s1 d, fun _ => rfl⟩
  | wPhase0 x p => exact ⟨.phase .s0 x p, fun _ => rfl⟩
  | wPhase1 x p => exact ⟨.phase .s1 x p, fun _ => rfl⟩

/-- A word reaches a running chip and changes nothing else. -/
theorem State.deliver_next_iff {s t : State} {o : OutWord} (hi : s.Idle) :
    s.deliver o = .next t ↔ ∃ c, s.chip = .live c ∧ t = { s with chip := c.receive o } := by
  rcases s.deliver_cases o with ⟨c, hc, hd⟩ | ⟨f, hf, hd⟩
  · rw [State.drain_idle hi] at hc hd
    simp [hd, hc, eq_comm]
  · rw [State.drain_idle hi] at hf
    simp [hd, hf]

/-! ### Every instruction, every step -/

/-- What an instruction can do to an idle block. -/
theorem exec_cases {i : Instr} {s t : State} (hi : s.Idle) (h : exec i s = .next t) :
    (i.isCommand = true ∧ Ends s (commandBody s.mclk i s.shadow) t) ∨
    (i.isCommand = false ∧ ∃ ch, t = { s with chip := ch }) := by
  cases hc : i.isCommand with
  | true => exact .inl ⟨rfl, (exec_command_iff hc hi).mp h⟩
  | false =>
    obtain ⟨o, ho⟩ := exec_outputWord hc
    rw [ho, State.deliver_next_iff hi] at h
    obtain ⟨c, _, ht⟩ := h
    exact .inr ⟨rfl, _, ht⟩

/-- A busy block finishes its command first (R47). -/
theorem exec_drain (i : Instr) (s : State) : exec i s = exec i s.drain := by
  cases hc : i.isCommand with
  | true => rw [exec_command hc, exec_command hc, State.runCommand_drain, State.drain_mclk]
  | false =>
    obtain ⟨o, ho⟩ := exec_outputWord hc
    simp only [ho, State.deliver, State.drain_drain]

/-- What a step can be: a wait, the report of an illegal command, or an instruction. -/
theorem step_cases {s t : State} (h : step s = .next t) :
    (s.inputs = [] ∧ t = s.drain) ∨
    (∃ c arg rest, s.inputs = .cmd c arg :: rest ∧ t = { s with inputs := rest }.reportIllegal c) ∨
    ∃ inp rest i, s.inputs = inp :: rest ∧ decode inp = .ok i ∧ exec i { s with inputs := rest } = .next t := by
  unfold step at h
  cases hin : s.inputs with
  | nil =>
    simp only [hin] at h
    exact .inl ⟨rfl, (Host.Outcome.next.inj h).symm⟩
  | cons inp rest =>
    simp only [hin] at h
    cases inp with
    | word w => exact .inr (.inr ⟨_, rest, _, rfl, rfl, h⟩)
    | cmd c arg =>
      simp only [State.runInput] at h
      cases hd : decodeCmd c arg with
      | ok i => exact .inr (.inr ⟨_, rest, i, rfl, hd, by simpa only [hd] using h⟩)
      | error e =>
        simp only [hd] at h
        exact .inr (.inl ⟨c, arg, rest, rfl, (Host.Outcome.next.inj h).symm⟩)

/-! ### Fields of the control word -/

/-- Clearing and setting fields, seen under another mask. -/
theorem word_and_or_and (c m x k : Word) : (c &&& m ||| x) &&& k = c &&& (m &&& k) ||| x &&& k := by
  rw [BitVec.and_or_distrib_right, BitVec.and_assoc]

/-- Flipping fields, seen under another mask. -/
theorem word_xor_and (c d k : Word) : (c ^^^ d) &&& k = (c &&& k) ^^^ (d &&& k) := by
  ext j
  simp [Bool.and_xor_distrib_right]

/-- Two words differ nowhere under a mask exactly where they agree under it. -/
theorem word_xor_and_eq_zero {c d k : Word} : (c ^^^ d) &&& k = 0#16 ↔ c &&& k = d &&& k := by
  rw [word_xor_and, BitVec.xor_eq_zero_iff]

/-- Words that agree under a mask agree under every narrower one. -/
theorem word_and_eq_of_narrower {c d k n : Word} (h : c &&& k = d &&& k) (hn : k &&& n = n) : c &&& n = d &&& n := by
  rw [← hn, ← BitVec.and_assoc, ← BitVec.and_assoc, h]

/-- The shape of a transaction rewrites B28 and HLB alone (R93). -/
theorem freqShape_ctrl_kept (i : Slot) (v old : Freq) (ctrl : Word) :
    (freqShape i v old ctrl).1 &&& 0xCFFF#16 = ctrl &&& 0xCFFF#16 := by
  have hkeep : ~~~shapeMask &&& 0xCFFF#16 = 0xCFFF#16 := by decide
  have hHLB : maskHLB &&& 0xCFFF#16 = 0#16 := by decide
  have hB28 : maskB28 &&& 0xCFFF#16 = 0#16 := by decide
  unfold freqShape
  split_ifs
  · rw [BitVec.and_assoc, hkeep]
  · rw [word_and_or_and, hkeep, hHLB, BitVec.or_zero]
  · rw [word_and_or_and, hkeep, hB28, BitVec.or_zero]

/-- SETWAVE rewrites the waveform bits alone (R102). -/
theorem waveCtrl_kept (ctrl : Word) (shape : Wave) : waveCtrl ctrl shape &&& 0xFFD5#16 = ctrl &&& 0xFFD5#16 := by
  have hkeep : ~~~waveMask &&& 0xFFD5#16 = 0xFFD5#16 := by decide
  have hbits : waveBits shape &&& 0xFFD5#16 = 0#16 := by cases shape <;> decide
  rw [waveCtrl, word_and_or_and, hkeep, hbits, BitVec.or_zero]

/-- SETWAVE makes the waveform bits the shape's pattern (R102). -/
theorem waveCtrl_wave (ctrl : Word) (shape : Wave) : waveCtrl ctrl shape &&& 0x002A#16 = waveBits shape := by
  have hclear : ~~~waveMask &&& 0x002A#16 = 0#16 := by decide
  have hbits : waveBits shape &&& 0x002A#16 = waveBits shape := by cases shape <;> decide
  rw [waveCtrl, word_and_or_and, hclear, hbits, BitVec.and_zero, BitVec.zero_or]

/-! ### The shadow a command stages -/

/-- `Stages sh i sh'`: `sh'` is a shadow the command `i` may stage from `sh` (R90 to R103). Of a SETFREQ form's control word it says only
that B28 and HLB alone may differ, and of an encoded value nothing. -/
inductive Stages (sh : Shadow) : Instr → Shadow → Prop where
  | init : Stages sh .init initShadow
  | setfreq (slot : Slot) (hz : Rat) (c : Word) (v : Freq) : c &&& 0xCFFF#16 = sh.ctrl &&& 0xCFFF#16 →
      Stages sh (.setfreq slot hz) ({ sh with ctrl := c }.setFreq slot v)
  | setfreqA (hz : Rat) (c : Word) (v : Freq) : c &&& 0xCFFF#16 = sh.ctrl &&& 0xCFFF#16 →
      Stages sh (.setfreqA hz) ({ sh with ctrl := c }.setFreq sh.activeFreq v)
  | setphase (slot : Slot) (deg : Rat) (v : Phase) : Stages sh (.setphase slot deg) (sh.setPhase slot v)
  | setphaseA (deg : Rat) (v : Phase) : Stages sh (.setphaseA deg) (sh.setPhase sh.activePhase v)
  | togglef : Stages sh .togglef { sh with ctrl := sh.ctrl ^^^ maskFSELECT }
  | togglep : Stages sh .togglep { sh with ctrl := sh.ctrl ^^^ maskPSELECT }
  | setwave (shape : Wave) : Stages sh (.setwave shape) { sh with ctrl := waveCtrl sh.ctrl shape, wave := shape }

/-- What a SETFREQ form stages: its slot and the control word (R92). -/
theorem setFreqBody_writes {m : Clock} {sh sh' : Shadow} {i : Slot} {hz : Rat} {ws : List Word}
    (h : setFreqBody m sh i hz = .writes ws sh') :
    ∃ c v, c &&& 0xCFFF#16 = sh.ctrl &&& 0xCFFF#16 ∧ sh' = { sh with ctrl := c }.setFreq i v := by
  unfold setFreqBody setFreqValue at h
  split_ifs at h
  cases h
  exact ⟨_, _, freqShape_ctrl_kept _ _ _ _, rfl⟩

/-- What a SETPHASE form stages: its slot (R97). -/
theorem setPhaseBody_writes {sh sh' : Shadow} {i : Slot} {deg : Rat} {ws : List Word}
    (h : setPhaseBody sh i deg = .writes ws sh') : ∃ v, sh' = sh.setPhase i v := by
  unfold setPhaseBody setPhaseValue at h
  split_ifs at h
  cases h
  exact ⟨_, rfl⟩

/-- A body that writes stages what its rule names. -/
theorem commandBody_stages {m : Clock} {i : Instr} {sh sh' : Shadow} {ws : List Word}
    (h : commandBody m i sh = .writes ws sh') : Stages sh i sh' := by
  cases i with
  | init => cases h; exact .init
  | setfreq slot hz =>
    obtain ⟨c, v, hc, rfl⟩ := setFreqBody_writes h
    exact .setfreq slot hz c v hc
  | setfreqA hz =>
    obtain ⟨c, v, hc, rfl⟩ := setFreqBody_writes h
    exact .setfreqA hz c v hc
  | setphase slot deg =>
    obtain ⟨v, rfl⟩ := setPhaseBody_writes h
    exact .setphase slot deg v
  | setphaseA deg =>
    obtain ⟨v, rfl⟩ := setPhaseBody_writes h
    exact .setphaseA deg v
  | togglef => cases h; exact .togglef
  | togglep => cases h; exact .togglep
  | setwave shape =>
    simp only [commandBody, setWaveBody] at h
    split_ifs at h
    cases h
    exact .setwave shape
  | wCtrl | wFreq0 | wFreq1 | wPhase0 | wPhase1 => cases h

/-- The fields of the control word an instruction keeps (R16 to R23). -/
def keptFields : Instr → Word
  | .init => 0x0000#16
  | .setfreq _ _ | .setfreqA _ => 0xCFFF#16
  | .togglef => 0xF7FF#16
  | .togglep => 0xFBFF#16
  | .setwave _ => 0xFFD5#16
  | .setphase _ _ | .setphaseA _ | .wCtrl _ | .wFreq0 _ | .wFreq1 _ | .wPhase0 _ _ | .wPhase1 _ _ => 0xFFFF#16

theorem Stages.ctrl_kept {sh sh' : Shadow} {i : Instr} (h : Stages sh i sh') :
    sh'.ctrl &&& keptFields i = sh.ctrl &&& keptFields i := by
  cases h with
  | init => simp [keptFields]
  | setfreq _ _ _ _ hc | setfreqA _ _ _ hc => rw [Shadow.ctrl_setFreq]; exact hc
  | setphase | setphaseA => rw [Shadow.ctrl_setPhase]
  | togglef => rw [word_xor_and, show maskFSELECT &&& keptFields .togglef = 0#16 by decide, BitVec.xor_zero]
  | togglep => rw [word_xor_and, show maskPSELECT &&& keptFields .togglep = 0#16 by decide, BitVec.xor_zero]
  | setwave => exact waveCtrl_kept _ _

/-- What holds of the kept fields holds of every narrower mask. -/
theorem Stages.ctrl_and {sh sh' : Shadow} {i : Instr} (h : Stages sh i sh') {n : Word} (hn : keptFields i &&& n = n) :
    sh'.ctrl &&& n = sh.ctrl &&& n :=
  word_and_eq_of_narrower h.ctrl_kept hn

/-- A command keeps the fields of the control word its rule does not name, however it ends. -/
theorem Ends.ctrl_kept {s t : State} {m : Clock} {i : Instr} (h : Ends s (commandBody m i s.shadow) t) :
    t.shadow.ctrl &&& keptFields i = s.shadow.ctrl &&& keptFields i :=
  h.shadow (P := fun sh => sh.ctrl &&& keptFields i = s.shadow.ctrl &&& keptFields i) (fun _ => rfl)
    (fun _ _ hw => (commandBody_stages hw).ctrl_kept)

/-- Only INIT stages SYNCED (R29). -/
theorem Stages.synced {sh sh' : Shadow} {i : Instr} (h : Stages sh i sh') :
    sh'.synced = if i = .init then true else sh.synced := by
  cases h with
  | init => rfl
  | setfreq | setfreqA => simp
  | setphase | setphaseA => simp
  | togglef | togglep | setwave => simp

end Sys2Proof.Machine
end

section
/-! SUPPORT. The invariant of R30 to R32 and R36, kept by every step. -/

namespace Sys2Proof.Machine

/-- Waveform coherence by the pattern function (R31, R88). -/
theorem Shadow.waveCoherent_iff {sh : Shadow} : sh.WaveCoherent ↔ sh.ctrl &&& 0x002A#16 = waveBits sh.wave := by
  unfold Shadow.WaveCoherent
  cases sh.wave <;> rfl

/-- No command stages a bit the block leaves at zero (R32). -/
theorem Stages.ctrlShape {sh sh' : Shadow} {i : Instr} (h : Stages sh i sh') (hs : sh.CtrlShape) : sh'.CtrlShape := by
  have hkept (hn : keptFields i &&& 0xC3D5#16 = 0xC3D5#16) : sh'.CtrlShape := (h.ctrl_and hn).trans hs
  cases h with
  | init => decide
  | setfreq | setfreqA | setphase | setphaseA | togglef | togglep | setwave => exact hkept (by rw [keptFields]; decide)

/-- A command stages the waveform bits with the waveform, or neither (R31). -/
theorem Stages.waveCoherent {sh sh' : Shadow} {i : Instr} (h : Stages sh i sh') (hw : sh.WaveCoherent) :
    sh'.WaveCoherent := by
  rw [Shadow.waveCoherent_iff] at hw ⊢
  have hkept (hn : keptFields i &&& 0x002A#16 = 0x002A#16) : sh'.ctrl &&& 0x002A#16 = waveBits sh.wave :=
    (h.ctrl_and hn).trans hw
  cases h with
  | init => decide
  | setfreq | setfreqA => rw [Shadow.wave_setFreq]; exact hkept (by rw [keptFields]; decide)
  | setphase | setphaseA => rw [Shadow.wave_setPhase]; exact hkept (by rw [keptFields]; decide)
  | togglef | togglep => exact hkept (by rw [keptFields]; decide)
  | setwave => exact waveCtrl_wave _ _

/-- A result code of a command is none of the two that are never written (R30). -/
theorem code_ne_of_mem {v : BitVec 3} (h : v ∈ [0#3, 1#3, 2#3, 3#3]) : v ≠ 5#3 ∧ v ≠ 6#3 := by
  revert v
  decide

/-- A command keeps the invariant, whatever it comes to. -/
theorem Ends.inv {s t : State} {m : Clock} {i : Instr} (h : Ends s (commandBody m i s.shadow) t) (hs : s.Inv) : t.Inv := by
  obtain ⟨_, _, hidle⟩ := h.frame
  obtain ⟨_, _, _, hcode⟩ := h.response
  exact {
    idle := hidle
    shape := h.shadow (fun _ => hs.shape) (fun _ _ hw => (commandBody_stages hw).ctrlShape hs.shape)
    wave := h.shadow (P := Shadow.WaveCoherent) (fun _ => hs.wave)
      (fun _ _ hw => (commandBody_stages hw).waveCoherent hs.wave)
    status := code_ne_of_mem hcode }

/-- Every instruction keeps the invariant. -/
theorem exec_keeps_inv {s t : State} {i : Instr} (hs : s.Inv) (h : exec i s = .next t) : t.Inv := by
  rcases exec_cases hs.idle h with ⟨_, he⟩ | ⟨_, ch, rfl⟩
  · exact he.inv hs
  · exact ⟨hs.idle, hs.shape, hs.wave, hs.status⟩

/-- The invariant does not speak of the command port. -/
theorem State.Inv.with_inputs {s : State} (h : s.Inv) (rest : List Input) : State.Inv { s with inputs := rest } :=
  ⟨h.idle, h.shape, h.wave, h.status⟩

/-- The report of an illegal command keeps the invariant. -/
theorem State.Inv.reportIllegal {s : State} (h : s.Inv) (c : Code) : (s.reportIllegal c).Inv := by
  rw [State.reportIllegal_idle h.idle]
  exact ⟨h.idle, h.shape, h.wave, (by decide : (4#3 : BitVec 3) ≠ 5#3 ∧ (4#3 : BitVec 3) ≠ 6#3)⟩

/-- Settles O42: a step waits, reports an illegal command, or runs an instruction, and each keeps the invariant. -/
theorem stepKeepsInv : Obligations.StepKeepsInv := by
  intro s t hs h
  rcases step_cases h with ⟨_, rfl⟩ | ⟨c, arg, rest, _, rfl⟩ | ⟨inp, rest, i, _, _, he⟩
  · rwa [State.drain_idle hs.idle]
  · exact (hs.with_inputs rest).reportIllegal c
  · exact exec_keeps_inv (hs.with_inputs rest) he

end Sys2Proof.Machine
end

section
/-! SUPPORT. The state of the block (spec/10_state.md): the clock, SYNCED, STATUS, the frames of the shadow, the sequencer's step, and
power-on. -/

namespace Sys2Proof.Machine

/-! ### The clock -/

/-- No instruction writes the clock, from a busy block either. -/
theorem exec_keeps_mclk {s t : State} {i : Instr} (h : exec i s = .next t) : t.mclk = s.mclk := by
  rw [exec_drain] at h
  rcases exec_cases s.drain_seq h with ⟨_, he⟩ | ⟨_, ch, rfl⟩
  · exact he.frame.1.trans s.drain_mclk
  · exact s.drain_mclk

/-- Settles O5: a step waits, reports an illegal command, or runs an instruction, and none of these writes the clock. -/
theorem clockNeverWritten : Obligations.ClockNeverWritten := by
  intro s t h
  rcases step_cases h with ⟨_, rfl⟩ | ⟨c, arg, rest, _, rfl⟩ | ⟨inp, rest, i, _, _, he⟩
  · exact s.drain_mclk
  · exact State.drain_mclk { s with inputs := rest }
  · exact exec_keeps_mclk (s := { s with inputs := rest }) he

/-! ### SYNCED (R29) -/

/-- SYNCED after a command: cleared by BUS_FAIL, set by an INIT that ends OK, else as it was. -/
theorem Ends.synced {s t : State} {m : Clock} {i : Instr} (h : Ends s (commandBody m i s.shadow) t) :
    t.shadow.synced =
      if t.status = 3#3 then false else if i = .init ∧ t.status = 0#3 then true else s.shadow.synced := by
  generalize hb : commandBody m i s.shadow = b at h
  cases h with
  | invalidArg v => simp [State.invalidAfter]
  | unchanged => simp [State.unchangedAfter]
  | ok ws sh => simpa [State.okAfter] using (commandBody_stages hb).synced
  | busFail => simp [State.busFailAfter]

/-- A body whose staged shadow has another value of SYNCED. -/
def Body.withSynced (b : Bool) : Body → Body
  | .invalidArg v => .invalidArg v
  | .unchanged => .unchanged
  | .writes ws sh => .writes ws { sh with synced := b }

/-- A SETFREQ form does not read SYNCED. -/
theorem setFreqBody_synced (m : Clock) (sh : Shadow) (i : Slot) (hz : Rat) (b : Bool) :
    setFreqBody m { sh with synced := b } i hz = (setFreqBody m sh i hz).withSynced b := by
  unfold setFreqBody setFreqValue
  simp only [apply_ite (Body.withSynced b)]
  cases i <;> rfl

/-- A SETPHASE form does not read SYNCED. -/
theorem setPhaseBody_synced (sh : Shadow) (i : Slot) (deg : Rat) (b : Bool) :
    setPhaseBody { sh with synced := b } i deg = (setPhaseBody sh i deg).withSynced b := by
  unfold setPhaseBody setPhaseValue
  simp only [apply_ite (Body.withSynced b)]
  cases i <;> rfl

/-- SETWAVE does not read SYNCED. -/
theorem setWaveBody_synced (shape : Wave) (sh : Shadow) (b : Bool) :
    setWaveBody shape { sh with synced := b } = (setWaveBody shape sh).withSynced b := by
  unfold setWaveBody
  rw [apply_ite (Body.withSynced b)]
  rfl

/-- No command's body reads SYNCED: with another value it comes to the same words, the staged SYNCED apart. -/
theorem commandBody_synced (m : Clock) (i : Instr) (sh : Shadow) (b : Bool) :
    ∃ b', commandBody m i { sh with synced := b } = (commandBody m i sh).withSynced b' := by
  cases i with
  | init => exact ⟨true, rfl⟩
  | setfreq slot hz => exact ⟨b, setFreqBody_synced m sh slot hz b⟩
  | setfreqA hz => exact ⟨b, setFreqBody_synced m sh sh.activeFreq hz b⟩
  | setphase slot deg => exact ⟨b, setPhaseBody_synced sh slot deg b⟩
  | setphaseA deg => exact ⟨b, setPhaseBody_synced sh sh.activePhase deg b⟩
  | togglef | togglep => exact ⟨b, rfl⟩
  | setwave shape => exact ⟨b, setWaveBody_synced shape sh b⟩
  | wCtrl | wFreq0 | wFreq1 | wPhase0 | wPhase1 => exact ⟨b, rfl⟩

/-- A command ends alike whatever SYNCED was and whatever SYNCED it stages, SYNCED itself apart. -/
theorem Ends.withSynced {s t : State} {body : Body} (h : Ends s body t) (b b' : Bool) :
    ∃ f, Ends { s with shadow := { s.shadow with synced := b } } (body.withSynced b')
      { t with shadow := { t.shadow with synced := f } } := by
  cases h with
  | invalidArg v => exact ⟨b, .invalidArg v⟩
  | unchanged => exact ⟨b, .unchanged⟩
  | ok ws sh hok => exact ⟨b', .ok ws _ hok⟩
  | busFail sent later w sh hok hf => exact ⟨false, .busFail sent later w _ hok hf⟩

/-- No instruction reads SYNCED. -/
theorem exec_ignores_synced {s t : State} {i : Instr} (hi : s.Idle) (h : exec i s = .next t) (b : Bool) :
    ∃ b', exec i { s with shadow := { s.shadow with synced := b } } =
      .next { t with shadow := { t.shadow with synced := b' } } := by
  have hi' : State.Idle { s with shadow := { s.shadow with synced := b } } := hi
  cases hc : i.isCommand with
  | true =>
    obtain ⟨b₁, hb₁⟩ := commandBody_synced s.mclk i s.shadow b
    obtain ⟨b₂, he⟩ := ((exec_command_iff hc hi).mp h).withSynced b b₁
    rw [← hb₁] at he
    exact ⟨b₂, (exec_command_iff hc hi').mpr he⟩
  | false =>
    obtain ⟨o, ho⟩ := exec_outputWord hc
    rw [ho, State.deliver_next_iff hi] at h
    obtain ⟨c, hchip, rfl⟩ := h
    exact ⟨b, (ho _).trans ((State.deliver_next_iff hi').mpr ⟨c, hchip, rfl⟩)⟩

/-- Settles O37: SYNCED follows a command's outcome, and no body reads it. -/
theorem syncedRule : Obligations.SyncedRule := by
  refine ⟨rfl, fun s t i hi h => ?_, fun s t i b hi h => exec_ignores_synced hi h b⟩
  rcases exec_cases hi h with ⟨hc, he⟩ | ⟨hc, ch, rfl⟩
  · simpa [hc] using he.synced
  · have hinit : i ≠ .init := by rintro rfl; simp [Instr.isCommand] at hc
    simp [hc, hinit]

/-! ### STATUS (R30) -/

/-- A command ends alike whatever STATUS was: it writes STATUS in every outcome. -/
theorem Ends.withStatus {s t : State} {b : Body} (h : Ends s b t) (v : BitVec 3) : Ends { s with status := v } b t := by
  cases h with
  | invalidArg a => exact .invalidArg a
  | unchanged => exact .unchanged
  | ok ws sh hok => exact .ok ws sh hok
  | busFail sent later w sh hok hf => exact .busFail sent later w sh hok hf

/-- Settles O38: every outcome of a command overwrites STATUS with the code of its response. -/
theorem statusRule : Obligations.StatusRule := by
  refine ⟨rfl, fun s t i hi hc h => ((exec_command_iff hc hi).mp h).response, fun _ _ => rfl, fun s i v hi hc => ?_⟩
  have h : exec i s = .next (s.runCommand i (commandBody s.mclk i)) := exec_command hc s
  have hi' : State.Idle { s with status := v } := hi
  rw [h]
  exact (exec_command_iff hc hi').mpr (((exec_command_iff hc hi).mp h).withStatus v)

/-! ### Frames of the shadow (R33) -/

/-- A frequency register other than the one a SETFREQ form targets is staged as it was, INIT apart. -/
theorem Stages.freq {sh sh' : Shadow} {i : Instr} (h : Stages sh i sh') (slot : Slot) :
    sh'.freq slot = sh.freq slot ∨ i = .init ∨ (∃ hz, i = .setfreq slot hz) ∨
      ∃ hz, i = .setfreqA hz ∧ slot = sh.activeFreq := by
  cases h with
  | init => exact .inr (.inl rfl)
  | setfreq target hz =>
    by_cases heq : slot = target
    · exact .inr (.inr (.inl ⟨hz, heq ▸ rfl⟩))
    · exact .inl (by rw [Shadow.freq_setFreq, if_neg heq]; rfl)
  | setfreqA hz =>
    by_cases heq : slot = sh.activeFreq
    · exact .inr (.inr (.inr ⟨hz, rfl, heq⟩))
    · exact .inl (by rw [Shadow.freq_setFreq, if_neg heq]; rfl)
  | setphase | setphaseA => exact .inl (by simp)
  | togglef | togglep | setwave => exact .inl rfl

/-- A phase register other than the one a SETPHASE form targets is staged as it was, INIT apart. -/
theorem Stages.phase {sh sh' : Shadow} {i : Instr} (h : Stages sh i sh') (slot : Slot) :
    sh'.phase slot = sh.phase slot ∨ i = .init ∨ (∃ deg, i = .setphase slot deg) ∨
      ∃ deg, i = .setphaseA deg ∧ slot = sh.activePhase := by
  cases h with
  | init => exact .inr (.inl rfl)
  | setphase target deg =>
    by_cases heq : slot = target
    · exact .inr (.inr (.inl ⟨deg, heq ▸ rfl⟩))
    · exact .inl (by rw [Shadow.phase_setPhase, if_neg heq])
  | setphaseA deg =>
    by_cases heq : slot = sh.activePhase
    · exact .inr (.inr (.inr ⟨deg, rfl, heq⟩))
    · exact .inl (by rw [Shadow.phase_setPhase, if_neg heq])
  | setfreq | setfreqA => exact .inl (by rw [Shadow.phase_setFreq]; rfl)
  | togglef | togglep | setwave => exact .inl rfl

/-- The waveform is staged as it was, INIT and SETWAVE apart. -/
theorem Stages.wave {sh sh' : Shadow} {i : Instr} (h : Stages sh i sh') :
    sh'.wave = sh.wave ∨ i = .init ∨ ∃ w, i = .setwave w := by
  cases h with
  | init => exact .inr (.inl rfl)
  | setwave shape => exact .inr (.inr ⟨shape, rfl⟩)
  | setfreq | setfreqA => exact .inl (by simp)
  | setphase | setphaseA => exact .inl (by simp)
  | togglef | togglep => exact .inl rfl

/-- Settles O40: the shadow after a command is the one before, SYNCED apart, or what it stages, and an output word reaches the chip
alone. -/
theorem registerFrames : Obligations.RegisterFrames := by
  intro s t i hi h
  rcases exec_cases hi h with ⟨hc, he⟩ | ⟨_, ch, rfl⟩
  · obtain ⟨hmclk, hinputs, _⟩ := he.frame
    refine ⟨fun slot => ?_, fun slot => ?_, ?_, hmclk, hinputs, by simp [hc]⟩
    · exact he.shadow (P := fun sh => sh.freq slot = s.shadow.freq slot ∨ _) (fun _ => .inl rfl)
        (fun _ _ hw => (commandBody_stages hw).freq slot)
    · exact he.shadow (P := fun sh => sh.phase slot = s.shadow.phase slot ∨ _) (fun _ => .inl rfl)
        (fun _ _ hw => (commandBody_stages hw).phase slot)
    · exact he.shadow (P := fun sh => sh.wave = s.shadow.wave ∨ _) (fun _ => .inl rfl)
        (fun _ _ hw => (commandBody_stages hw).wave)
  · exact ⟨fun _ => .inl rfl, fun _ => .inl rfl, .inl rfl, rfl, rfl, fun _ => ⟨ch, rfl⟩⟩

/-- Every instruction keeps the fields of the control word its rule does not name. -/
theorem exec_ctrl_kept {s t : State} {i : Instr} (hi : s.Idle) (h : exec i s = .next t) :
    t.shadow.ctrl &&& keptFields i = s.shadow.ctrl &&& keptFields i := by
  rcases exec_cases hi h with ⟨_, he⟩ | ⟨_, ch, rfl⟩
  · exact he.ctrl_kept
  · rfl

/-- Words that agree under the full mask are equal. -/
theorem word_eq_of_and_allOnes {c d : Word} (h : c &&& 0xFFFF#16 = d &&& 0xFFFF#16) : c = d := by
  have full (x : Word) : x &&& 0xFFFF#16 = x := BitVec.and_allOnes
  rw [← full c, ← full d, h]

/-- Settles O41: the masks of the statement are the fields each instruction keeps. -/
theorem controlFieldsKept : Obligations.ControlFieldsKept := by
  intro s t i hi h
  have hkept := exec_ctrl_kept hi h
  cases i with
  | init => trivial
  | setfreq | setfreqA | togglef | togglep | setwave => exact word_xor_and_eq_zero.mpr hkept
  | setphase | setphaseA | wCtrl | wFreq0 | wFreq1 | wPhase0 | wPhase1 => exact word_eq_of_and_allOnes hkept

/-! ### One transfer of the sequencer (R27, R108) -/

/-- Settles O57: the three cases of one step of a running sequencer. -/
theorem indexRisesByOne : Obligations.IndexRisesByOne := by
  intro s q hq
  have hhead : (q.words.drop q.index).head? = q.words[q.index]? := List.head?_drop
  rcases State.tick_cases hq with ⟨hd, ht⟩ | ⟨w, _, hd, hok, ht⟩ | ⟨w, _, hd, hf, ht⟩ <;> rw [← hhead, hd, ht]
  · exact ⟨by simp, fun _ => ⟨rfl, rfl, rfl⟩⟩
  · simp [hok]
  · simp [hf]

/-! ### Power-on (R34) -/

/-- Settles O1: the fields of the power-on state are the constants R34 lists. -/
theorem powerOnState : Obligations.PowerOnState :=
  ⟨rfl, rfl, rfl, rfl, rfl, rfl, rfl, rfl, rfl, rfl, rfl⟩

/-- Settles O43: at power-on CTRL is zero with WAVE = SINE, STATUS is NONE, and no event has been emitted. -/
theorem powerOnInv : Obligations.PowerOnInv :=
  ⟨⟨rfl, by decide, by decide, by decide⟩, rfl⟩

end Sys2Proof.Machine
end

section
/-! SUPPORT. Assembled words as a tag above a payload, and what the decoder of R73 reads from them. -/

namespace Sys2Proof.Machine

/-! ### A word is a tag above a payload (R69 to R71) -/

/-- The tag of a frequency word (R70). -/
def freqTag : Slot → BitVec 2
  | .s0 => 0b01#2
  | .s1 => 0b10#2

/-- The tag of a phase word (R71). -/
def phaseTag : Slot → BitVec 3
  | .s0 => 0b110#3
  | .s1 => 0b111#3

theorem ctrlWord_eq_append (c : Word) : ctrlWord c = 0b00#2 ++ c.extractLsb' 0 14 := by
  rw [ctrlWord, addressOf, BitVec.or_zero]
  exact BitVec.setWidth_eq_append (by decide)

theorem freqWord_eq_append (i : Slot) (h : Half) : freqWord i h = freqTag i ++ h := by
  have htag : addressOf (freqReg i) = freqTag i ++ 0#14 := by cases i <;> rfl
  have hzext : h.setWidth 16 = 0#2 ++ h := BitVec.setWidth_eq_append (by decide)
  have hmask : 0x3FFF#16 = 0#2 ++ BitVec.allOnes 14 := rfl
  rw [freqWord, htag, hzext, hmask, BitVec.and_append, BitVec.or_append, BitVec.and_allOnes]
  simp

theorem phaseWord_eq_append (i : Slot) (v : Phase) : phaseWord i v = phaseTag i ++ 0#1 ++ v := by
  have htag : addressOf (phaseReg i) = phaseTag i ++ 0#1 ++ 0#12 := by cases i <;> rfl
  have hzext : v.setWidth 16 = 0#4 ++ v := BitVec.setWidth_eq_append (by decide)
  have hmask : 0x0FFF#16 = 0#4 ++ BitVec.allOnes 12 := rfl
  rw [phaseWord, htag, hzext, hmask, BitVec.and_append, BitVec.or_append, BitVec.and_allOnes]
  simp

/-! ### Decoding a tag above a payload (R73) -/

theorem tag_of_append (t : BitVec 2) (d : Half) : BitVec.extractLsb' 14 2 (t ++ d : Word) = t :=
  BitVec.extractLsb'_append_eq_left

theorem payload_of_append (t : BitVec 2) (d : Half) : BitVec.extractLsb' 0 14 (t ++ d : Word) = d :=
  BitVec.extractLsb'_append_eq_right

theorem decodeOut_control (d : Half) : decodeOut (0b00#2 ++ d) = .control d := by
  unfold decodeOut
  rw [tag_of_append, payload_of_append]
  rfl

theorem decodeOut_freq (i : Slot) (d : Half) : decodeOut (freqTag i ++ d) = .freq i d := by
  unfold decodeOut
  rw [tag_of_append, payload_of_append]
  cases i <;> rfl

theorem decodeOut_phase (i : Slot) (x : BitVec 1) (p : Phase) : decodeOut (phaseTag i ++ x ++ p) = .phase i x p := by
  have hhigh : BitVec.extractLsb' 14 2 (phaseTag i ++ x ++ p : Word) = 0b11#2 := by
    have h : BitVec.extractLsb' 14 2 (phaseTag i ++ x ++ p : Word) = BitVec.extractLsb' 1 2 (phaseTag i) :=
      (BitVec.extractLsb'_append_eq_of_le (by decide)).trans (BitVec.extractLsb'_append_eq_of_le (by decide))
    rw [h]
    cases i <;> rfl
  have htag : BitVec.extractLsb' 13 3 (phaseTag i ++ x ++ p : Word) = phaseTag i :=
    (BitVec.extractLsb'_append_eq_of_le (by decide)).trans BitVec.extractLsb'_append_eq_left
  have hbit : BitVec.extractLsb' 12 1 (phaseTag i ++ x ++ p : Word) = x :=
    (BitVec.extractLsb'_append_eq_of_le (by decide)).trans BitVec.extractLsb'_append_eq_right
  have hpayload : BitVec.extractLsb' 0 12 (phaseTag i ++ x ++ p : Word) = p := BitVec.extractLsb'_append_eq_right
  unfold decodeOut
  rw [hhigh, htag, hbit, hpayload]
  cases i <;> rfl

@[simp] theorem decodeOut_ctrlWord (c : Word) : decodeOut (ctrlWord c) = .control (c.extractLsb' 0 14) := by
  rw [ctrlWord_eq_append, decodeOut_control]

@[simp] theorem decodeOut_freqWord (i : Slot) (h : Half) : decodeOut (freqWord i h) = .freq i h := by
  rw [freqWord_eq_append, decodeOut_freq]

@[simp] theorem decodeOut_phaseWord (i : Slot) (v : Phase) : decodeOut (phaseWord i v) = .phase i 0#1 v := by
  rw [phaseWord_eq_append, decodeOut_phase]

/-- Settles O13: each assembly function puts its tag above its payload, and the decoder reads the two back. -/
theorem wordsCarryTheirTag : Obligations.WordsCarryTheirTag :=
  ⟨decodeOut_ctrlWord, decodeOut_freqWord, decodeOut_phaseWord⟩

end Sys2Proof.Machine
end

section
/-! SUPPORT. The reference chip model (spec/20_memory.md R52 to R58): what each word does to its registers, word by word and as the
transactions the commands send. -/

namespace Sys2Proof.Machine

/-! ### A frequency word, case by case (R54 to R56, R58) -/

section FrequencyWord

variable {c : ChipRegs} (i : Slot) (p : Half)

theorem ChipRegs.receiveFreq_first (hb : c.b28 = true) (hp : c.pend = none) :
    c.receiveFreq i p = .live { c with pend := some (i, p) } := by
  simp [receiveFreq_fresh hp, freshFreq, hb]

theorem ChipRegs.receiveFreq_second {lo : Half} (hb : c.b28 = true) (hp : c.pend = some (i, lo)) :
    c.receiveFreq i p = .live { c.setFreq i (p ++ lo) with pend := none } := by
  simp [receiveFreq, hp, hb]

theorem ChipRegs.receiveFreq_upper (hb : c.b28 = false) (hl : c.hlb = true) (hp : c.pend = none) :
    c.receiveFreq i p = .live (c.setFreq i (p ++ (c.freq i).extractLsb' 0 14)) := by
  simp [receiveFreq_fresh hp, freshFreq, hb, hl]

theorem ChipRegs.receiveFreq_lower (hb : c.b28 = false) (hl : c.hlb = false) (hp : c.pend = none) :
    c.receiveFreq i p = .live (c.setFreq i ((c.freq i).extractLsb' 14 14 ++ p)) := by
  simp [receiveFreq_fresh hp, freshFreq, hb, hl]

theorem ChipRegs.receiveFreq_otherSlot {j : Slot} {lo : Half} (hb : c.b28 = true) (hp : c.pend = some (j, lo))
    (hj : j ≠ i) : c.receiveFreq i p = .stopped .otherSlotPending := by
  simp [receiveFreq, hp, hb, hj]

theorem ChipRegs.receiveFreq_halfDone {x : Slot × Half} (hb : c.b28 = false) (hp : c.pend = some x) :
    c.receiveFreq i p = .stopped .pairHalfDone := by
  simp [receiveFreq, hp, hb]

end FrequencyWord

/-! ### The halves of a frequency value (R87) -/

theorem lower14_eq_extractLsb' (v : Freq) : lower14 v = v.extractLsb' 0 14 := by
  have hmask : 0x3FFF#28 = 0#14 ++ BitVec.allOnes 14 := rfl
  rw [lower14, BitVec.setWidth_eq_extractLsb' (by decide), BitVec.extractLsb'_and, hmask]
  exact (congrArg _ BitVec.extractLsb'_append_eq_right).trans BitVec.and_allOnes

theorem upper14_eq_extractLsb' (v : Freq) : upper14 v = v.extractLsb' 14 14 := by
  change lower14 (v >>> 14) = _
  rw [lower14_eq_extractLsb']
  ext k hk
  simp

theorem upper14_append_lower14 (v : Freq) : upper14 v ++ lower14 v = v := by
  rw [lower14_eq_extractLsb', upper14_eq_extractLsb']
  exact BitVec.extractLsb'_append_extractLsb'

/-! ### One of the block's words at a running chip (R53, R54, R57) -/

@[simp] theorem Chip.receive_ctrlWord (c : ChipRegs) (w : Word) :
    (Chip.live c).receive (ctrlWord w) = .live { c with ctrl := w.extractLsb' 0 14 } := by
  rw [Chip.receive, decodeOut_ctrlWord, ChipRegs.receive]

@[simp] theorem Chip.receive_freqWord (c : ChipRegs) (i : Slot) (p : Half) :
    (Chip.live c).receive (freqWord i p) = c.receiveFreq i p := by
  rw [Chip.receive, decodeOut_freqWord, ChipRegs.receive]

@[simp] theorem Chip.receive_phaseWord (c : ChipRegs) (i : Slot) (v : Phase) :
    (Chip.live c).receive (phaseWord i v) = .live (c.setPhase i v) := by
  rw [Chip.receive, decodeOut_phaseWord, ChipRegs.receive]

/-- The chip's mode bits are bits 13 and 12 of the control word it took last. -/
theorem ChipRegs.b28_of_word (c : ChipRegs) (w : Word) :
    ChipRegs.b28 { c with ctrl := w.extractLsb' 0 14 } = w.getLsbD 13 := by
  simp [ChipRegs.b28]

theorem ChipRegs.hlb_of_word (c : ChipRegs) (w : Word) :
    ChipRegs.hlb { c with ctrl := w.extractLsb' 0 14 } = w.getLsbD 12 := by
  simp [ChipRegs.hlb]

@[simp] theorem ChipRegs.freq_with_ctrl (c : ChipRegs) (d : Half) (i : Slot) :
    ChipRegs.freq { c with ctrl := d } i = c.freq i := by cases i <;> rfl

/-! ### The transactions of SETFREQ and INIT (R90, R93) -/

/-- A control word with B28 = 1 and then the two halves, on a chip with no half pending, latch the 28-bit value. -/
theorem Chip.receive_pair {c : ChipRegs} (hp : c.pend = none) {w : Word} (hw : w.getLsbD 13 = true) (i : Slot)
    (lo hi : Half) :
    [ctrlWord w, freqWord i lo, freqWord i hi].foldl Chip.receive (.live c) =
      .live (ChipRegs.setFreq { c with ctrl := w.extractLsb' 0 14 } i (hi ++ lo)) := by
  have hb := (c.b28_of_word w).trans hw
  simp only [List.foldl_cons, List.foldl_nil, Chip.receive_ctrlWord, Chip.receive_freqWord]
  rw [ChipRegs.receiveFreq_first i lo hb hp, Chip.receive_freqWord,
    ChipRegs.receiveFreq_second i hi (c := { c with ctrl := w.extractLsb' 0 14, pend := some (i, lo) }) hb rfl]
  cases i <;> simp [ChipRegs.setFreq, hp]

/-- A control word with B28 = HLB = 0 and then one frequency word write the lower half alone. -/
theorem Chip.receive_lowerHalf {c : ChipRegs} (hp : c.pend = none) {w : Word} (hb : w.getLsbD 13 = false)
    (hl : w.getLsbD 12 = false) (i : Slot) (p : Half) :
    [ctrlWord w, freqWord i p].foldl Chip.receive (.live c) =
      .live (ChipRegs.setFreq { c with ctrl := w.extractLsb' 0 14 } i ((c.freq i).extractLsb' 14 14 ++ p)) := by
  simp only [List.foldl_cons, List.foldl_nil, Chip.receive_ctrlWord, Chip.receive_freqWord]
  rw [ChipRegs.receiveFreq_lower i p ((c.b28_of_word w).trans hb) ((c.hlb_of_word w).trans hl) hp, ChipRegs.freq_with_ctrl]

/-- A control word with B28 = 0 and HLB = 1 and then one frequency word write the upper half alone. -/
theorem Chip.receive_upperHalf {c : ChipRegs} (hp : c.pend = none) {w : Word} (hb : w.getLsbD 13 = false)
    (hl : w.getLsbD 12 = true) (i : Slot) (p : Half) :
    [ctrlWord w, freqWord i p].foldl Chip.receive (.live c) =
      .live (ChipRegs.setFreq { c with ctrl := w.extractLsb' 0 14 } i (p ++ (c.freq i).extractLsb' 0 14)) := by
  simp only [List.foldl_cons, List.foldl_nil, Chip.receive_ctrlWord, Chip.receive_freqWord]
  rw [ChipRegs.receiveFreq_upper i p ((c.b28_of_word w).trans hb) ((c.hlb_of_word w).trans hl) hp, ChipRegs.freq_with_ctrl]

/-- The transaction of R93 leaves the chip with the shape's control word and the new value, whatever shape it takes: the half it
does not send is the one the register holds. -/
theorem freqShape_chip {c : ChipRegs} (hp : c.pend = none) (i : Slot) (v : Freq) (ctrl : Word) :
    (freqShape i v (c.freq i) ctrl).2.foldl Chip.receive (.live c) =
      .live (ChipRegs.setFreq { c with ctrl := (freqShape i v (c.freq i) ctrl).1.extractLsb' 0 14 } i v) := by
  unfold freqShape
  split_ifs with hupper hlower
  · rw [Chip.receive_lowerHalf hp (by simp [shapeMask, maskB28]) (by simp [shapeMask, maskHLB]), ← upper14_eq_extractLsb',
      ← hupper, upper14_append_lower14]
  · rw [Chip.receive_upperHalf hp (by simp [shapeMask, maskB28, maskHLB]) (by simp [maskHLB]), ← lower14_eq_extractLsb',
      ← hlower, upper14_append_lower14]
  · rw [Chip.receive_pair hp (by simp [maskB28]), upper14_append_lower14]

/-- INIT's ten words zero every register of a running chip with no half pending (R90). -/
theorem initWords_chip {c : ChipRegs} (hp : c.pend = none) :
    initWords.foldl Chip.receive (.live c) = .live ⟨0#14, 0#28, 0#28, 0#12, 0#12, none⟩ := by
  have hreset : [ctrlWord maskRESET].foldl Chip.receive (.live c) = .live { c with ctrl := maskRESET.extractLsb' 0 14 } :=
    Chip.receive_ctrlWord c maskRESET
  have hb : (maskRESET ||| maskB28).getLsbD 13 = true := by decide
  simp only [initWords, initSlot, List.foldl_append]
  rw [hreset, Chip.receive_pair (by exact hp) hb, Chip.receive_pair (by rw [ChipRegs.pend_setFreq]; exact hp) hb]
  simp [ChipRegs.setFreq, ChipRegs.setPhase, hp]

end Sys2Proof.Machine
end

section
/-! SUPPORT. The output words presented by themselves to the reference chip model (spec/20_memory.md R53 to R58). -/

namespace Sys2Proof.Machine

/-- A word presented to a running chip reaches it, and nothing else changes. -/
theorem State.deliver_live {s : State} {c : ChipRegs} (hi : s.Idle) (hc : s.chip = .live c) (o : OutWord) :
    s.deliver o = .next { s with chip := c.receive o } :=
  (State.deliver_next_iff hi).mpr ⟨c, hc, rfl⟩

/-- A frequency word presented to a running chip. -/
theorem State.deliver_freq {s : State} {c : ChipRegs} {ch : Chip} {i : Slot} {p : Half} (hi : s.Idle)
    (hc : s.chip = .live c) (h : c.receiveFreq i p = ch) : s.deliver (.freq i p) = .next { s with chip := ch } := by
  rw [State.deliver_live hi hc, ChipRegs.receive, h]

/-- A word presented to a stopped chip faults with the reason it stopped for. -/
theorem State.deliver_stopped {s : State} {f : Fault} (hi : s.Idle) (hf : s.chip = .stopped f) (o : OutWord) :
    s.deliver o = .fault f := by
  rcases s.deliver_cases o with ⟨c, hc, _⟩ | ⟨f', hf', hd⟩
  · rw [State.drain_idle hi, hf] at hc
    cases hc
  · rw [State.drain_idle hi, hf] at hf'
    cases hf'
    exact hd

/-- Settles O49: a control word's payload is all the chip takes of it. -/
theorem controlWordAtChip : Obligations.ControlWordAtChip :=
  fun _ _ p hi hc => State.deliver_live hi hc (.control p)

/-- Settles O50: the first word of a pair is held, the second latches both halves. -/
theorem frequencyPairAtChip : Obligations.FrequencyPairAtChip := by
  intro s c p lo hi hc hb
  refine ⟨fun hp => ⟨?_, ?_⟩, fun hp => ?_, fun hp => ?_⟩
  · exact State.deliver_freq hi hc (ChipRegs.receiveFreq_first .s0 p hb hp)
  · exact State.deliver_freq hi hc (ChipRegs.receiveFreq_first .s1 p hb hp)
  · exact State.deliver_freq hi hc (ChipRegs.receiveFreq_second .s0 p hb hp)
  · exact State.deliver_freq hi hc (ChipRegs.receiveFreq_second .s1 p hb hp)

/-- The two halves of a value put together from them. -/
theorem extractLsb'_halves (hi lo : Half) :
    BitVec.extractLsb' 14 14 (hi ++ lo : Freq) = hi ∧ BitVec.extractLsb' 0 14 (hi ++ lo : Freq) = lo :=
  ⟨BitVec.extractLsb'_append_eq_left, BitVec.extractLsb'_append_eq_right⟩

/-- Settles O51: the new value is the payload above the half the register held. -/
theorem frequencyUpperAtChip : Obligations.FrequencyUpperAtChip := by
  intro s c p hi hc hb hl hp
  exact ⟨⟨_, State.deliver_freq hi hc (ChipRegs.receiveFreq_upper .s0 p hb hl hp), extractLsb'_halves _ _⟩,
    ⟨_, State.deliver_freq hi hc (ChipRegs.receiveFreq_upper .s1 p hb hl hp), extractLsb'_halves _ _⟩⟩

/-- Settles O52: the new value is the half the register held above the payload. -/
theorem frequencyLowerAtChip : Obligations.FrequencyLowerAtChip := by
  intro s c p hi hc hb hl hp
  exact ⟨⟨_, State.deliver_freq hi hc (ChipRegs.receiveFreq_lower .s0 p hb hl hp), (extractLsb'_halves _ _).symm⟩,
    ⟨_, State.deliver_freq hi hc (ChipRegs.receiveFreq_lower .s1 p hb hl hp), (extractLsb'_halves _ _).symm⟩⟩

/-- Settles O53: a phase word writes its slot's register whatever its bit 12. -/
theorem phaseWordAtChip : Obligations.PhaseWordAtChip :=
  fun _ _ x p hi hc => ⟨State.deliver_live hi hc (.phase .s0 x p), State.deliver_live hi hc (.phase .s1 x p)⟩

/-- Settles O54: a half pending for the other slot, or any half pending outside 28-bit mode, stops the chip. -/
theorem halfDonePairAtChip : Obligations.HalfDonePairAtChip := by
  intro s c p lo hi hc
  refine ⟨fun hb => ⟨fun hp => ?_, fun hp => ?_⟩, fun hb j hp => ⟨?_, ?_⟩⟩
  · exact State.deliver_freq hi hc (ChipRegs.receiveFreq_otherSlot .s0 p hb hp (by decide))
  · exact State.deliver_freq hi hc (ChipRegs.receiveFreq_otherSlot .s1 p hb hp (by decide))
  · exact State.deliver_freq hi hc (ChipRegs.receiveFreq_halfDone .s0 p hb hp)
  · exact State.deliver_freq hi hc (ChipRegs.receiveFreq_halfDone .s1 p hb hp)

/-- Settles O55: each output word is a delivery, and a stopped chip refuses every delivery with its reason. -/
theorem stoppedChipFaults : Obligations.StoppedChipFaults := by
  intro s f h x p hi hf
  have hfault := State.deliver_stopped hi hf
  exact ⟨hfault _, hfault _, hfault _, hfault _, hfault _⟩

end Sys2Proof.Machine
end

section
/-! SUPPORT. The shadow and the chip (spec/20_memory.md R52, R59): a command's words bring a chip equal to the shadow to the shadow the
command stages, and no command reads the chip. -/

namespace Sys2Proof.Machine

/-! ### The coherence law (R59) -/

/-- The registers of a chip that is coherent with the shadow: CTRL's payload, the four registers, and no half pending. -/
def Shadow.regs (sh : Shadow) : ChipRegs where
  ctrl := sh.ctrl.extractLsb' 0 14
  freq0 := sh.freq0
  freq1 := sh.freq1
  phase0 := sh.phase0
  phase1 := sh.phase1
  pend := none

theorem State.coherent_iff {s : State} : s.Coherent ↔ s.chip = .live s.shadow.regs := by
  constructor
  · rintro ⟨⟨⟩, hchip, hctrl, hfreq0, hfreq1, hphase0, hphase1, hpend⟩
    simp only at hctrl hfreq0 hfreq1 hphase0 hphase1 hpend
    rw [hchip, hctrl, hfreq0, hfreq1, hphase0, hphase1, hpend]
    rfl
  · intro h
    exact ⟨_, h, rfl, rfl, rfl, rfl, rfl, rfl⟩

@[simp] theorem Shadow.regs_freq (sh : Shadow) (i : Slot) : sh.regs.freq i = sh.freq i := by cases i <;> rfl

@[simp] theorem Shadow.regs_setFreq (sh : Shadow) (i : Slot) (v : Freq) : (sh.setFreq i v).regs = sh.regs.setFreq i v := by
  cases i <;> rfl

@[simp] theorem Shadow.regs_setPhase (sh : Shadow) (i : Slot) (v : Phase) :
    (sh.setPhase i v).regs = sh.regs.setPhase i v := by cases i <;> rfl

/-- The words of a SETFREQ form bring the chip from the shadow to the one it stages (R92). -/
theorem setFreqBody_chip {m : Clock} {sh sh' : Shadow} {i : Slot} {hz : Rat} {ws : List Word}
    (h : setFreqBody m sh i hz = .writes ws sh') : ws.foldl Chip.receive (.live sh.regs) = .live sh'.regs := by
  unfold setFreqBody setFreqValue at h
  split_ifs at h
  cases h
  rw [Shadow.regs_setFreq, ← Shadow.regs_freq]
  exact freqShape_chip rfl _ _ _

/-- The word of a SETPHASE form brings the chip from the shadow to the one it stages (R97). -/
theorem setPhaseBody_chip {sh sh' : Shadow} {i : Slot} {deg : Rat} {ws : List Word}
    (h : setPhaseBody sh i deg = .writes ws sh') : ws.foldl Chip.receive (.live sh.regs) = .live sh'.regs := by
  unfold setPhaseBody setPhaseValue at h
  split_ifs at h
  cases h
  rw [Shadow.regs_setPhase]
  exact Chip.receive_phaseWord _ _ _

/-- The words of a command, all delivered, bring a chip that equals the shadow to the shadow the command stages. -/
theorem commandBody_chip {m : Clock} {i : Instr} {sh sh' : Shadow} {ws : List Word}
    (h : commandBody m i sh = .writes ws sh') : ws.foldl Chip.receive (.live sh.regs) = .live sh'.regs := by
  cases i with
  | init => cases h; exact initWords_chip rfl
  | setfreq | setfreqA => exact setFreqBody_chip h
  | setphase | setphaseA => exact setPhaseBody_chip h
  | togglef | togglep => cases h; exact Chip.receive_ctrlWord _ _
  | setwave shape =>
    simp only [commandBody, setWaveBody] at h
    split_ifs at h
    cases h
    exact Chip.receive_ctrlWord _ _
  | wCtrl | wFreq0 | wFreq1 | wPhase0 | wPhase1 => cases h

/-- Settles O46: with no failed word among its events a command ends without writing, or it commits what its words brought the chip to. -/
theorem coherenceKept : Obligations.CoherenceKept := by
  intro s t i es hi hc hco hex hes hok
  have hends := (exec_command_iff hc hi).mp hex
  generalize hb : commandBody s.mclk i s.shadow = b at hends
  cases hends with
  | invalidArg | unchanged => exact hco
  | ok ws sh =>
    rw [State.coherent_iff] at hco ⊢
    change ws.foldl Chip.receive s.chip = .live sh.regs
    rw [hco, commandBody_chip hb]
  | busFail sent later w sh =>
    have hes' : failEvents sent w = es := List.append_cancel_left hes
    have hmem : Event.write w false ∈ es := by simp [← hes', failEvents]
    exact absurd hmem (hok w)

/-- Settles O47: INIT's words zero whatever registers the chip held, and INIT commits the same zeros. -/
theorem initMakesCoherent : Obligations.InitMakesCoherent := by
  intro s t c hi hok hc hp hex
  have hrun : exec .init s = .next (s.okAfter initWords initShadow) :=
    (exec_command_iff rfl hi).mpr (.ok initWords initShadow hok)
  obtain rfl := Host.Outcome.next.inj (hrun.symm.trans hex)
  refine ⟨State.coherent_iff.mpr ?_, rfl⟩
  change initWords.foldl Chip.receive s.chip = .live initShadow.regs
  rw [hc, initWords_chip hp]
  rfl

/-! ### No command reads the chip (R52) -/

/-- A command ends alike with any other chip, the chip apart. -/
theorem Ends.withChip {s t : State} {b : Body} (h : Ends s b t) (ch : Chip) :
    ∃ ch', Ends { s with chip := ch } b { t with chip := ch' } := by
  cases h with
  | invalidArg v => exact ⟨_, .invalidArg v⟩
  | unchanged => exact ⟨_, .unchanged⟩
  | ok ws sh hok => exact ⟨_, .ok ws sh hok⟩
  | busFail sent later w sh hok hf => exact ⟨_, .busFail sent later w sh hok hf⟩

/-- Settles O39: the body reads the shadow, the answers do not depend on the chip, and each outcome keeps the chip apart. -/
theorem chipNeverRead : Obligations.ChipNeverRead := by
  intro s t i ch hi hc hex
  obtain ⟨ch', hends⟩ := ((exec_command_iff hc hi).mp hex).withChip ch
  exact ⟨ch', (exec_command_iff (s := { s with chip := ch }) hc hi).mpr hends⟩

end Sys2Proof.Machine
end

section
/-! SUPPORT. Sessions, the command in progress, and several blocks (spec/20_memory.md R45 to R47, R60). -/

namespace Sys2Proof.Machine

/-! ### One session per command (R46) -/

/-- The event list of one session with the words `es` and their answers. -/
def sessionEvents (es : List (Word × Bool)) : List Event :=
  .sessionBegin :: (es.map (fun p => Event.write p.1 p.2) ++ [.sessionEnd])

/-- A command adds one session to the trace, in every outcome. -/
theorem Ends.session {s t : State} {b : Body} (h : Ends s b t) : ∃ es, t.trace = s.trace ++ sessionEvents es := by
  cases h with
  | invalidArg | unchanged => exact ⟨[], rfl⟩
  | ok ws => exact ⟨ws.map (fun w => (w, true)), by simp [State.okAfter, okEvents, sessionEvents]⟩
  | busFail sent later w =>
    exact ⟨sent.map (fun v => (v, true)) ++ [(w, false)], by simp [State.busFailAfter, failEvents, sessionEvents]⟩

/-- A trace that brackets its words leaves no session open for what follows. -/
theorem bracketed_append {es : List Event} (fs : List Event) : ∀ {within : Bool}, bracketed within es = true →
    bracketed within (es ++ fs) = bracketed false fs := by
  induction es with
  | nil =>
    intro within h
    obtain rfl : within = false := by simpa [bracketed] using h
    rfl
  | cons e es ih =>
    intro within h
    cases e with
    | sessionBegin | write | sessionEnd =>
      simp only [bracketed, List.cons_append, Bool.and_eq_true] at h ⊢
      rw [h.1, ih h.2, Bool.true_and]

theorem bracketed_sessionEvents (es : List (Word × Bool)) : bracketed false (sessionEvents es) = true := by
  simp only [sessionEvents, bracketed, Bool.not_false, Bool.true_and]
  induction es with
  | nil => rfl
  | cons p es ih => simpa [bracketed] using ih

/-- An instruction keeps the trace bracketed: it adds a session or nothing. -/
theorem exec_keeps_bracketed {s t : State} {i : Instr} (hi : s.Idle) (hb : bracketed false s.trace = true)
    (h : exec i s = .next t) : bracketed false t.trace = true := by
  rcases exec_cases hi h with ⟨_, he⟩ | ⟨_, ch, rfl⟩
  · obtain ⟨es, ht⟩ := he.session
    rw [ht, bracketed_append _ hb, bracketed_sessionEvents]
  · exact hb

/-- Settles O44: a command adds one session, the report of an illegal one nothing, and a wait nothing. -/
theorem sessionsBracketed : Obligations.SessionsBracketed := by
  have hreport (s : State) (c : Code) (hi : s.Idle) : (s.reportIllegal c).trace = s.trace := by
    rw [State.reportIllegal_idle hi]
    rfl
  refine ⟨fun s t i hi hc h => ?_, fun s c => hreport s c, fun s t hi hb h => ?_⟩
  · obtain ⟨es, ht⟩ := ((exec_command_iff hc hi).mp h).session
    exact ⟨es, by simp [ht, sessionEvents]⟩
  · rcases step_cases h with ⟨_, rfl⟩ | ⟨c, arg, rest, _, rfl⟩ | ⟨inp, rest, i, _, _, he⟩
    · rwa [State.drain_idle hi]
    · rw [hreport { s with inputs := rest } c hi]
      exact hb
    · exact exec_keeps_bracketed (s := { s with inputs := rest }) hi hb he

/-! ### The command in progress (R27, R47) -/

section InProgress

variable {s : State} {q : Sequencer} (hq : s.seq = some q)
include hq

/-- Draining a running sequencer takes one step a word, and one more for the end of the command. -/
theorem State.drain_eq_ticks : s.drain = s.ticks ((q.words.drop q.index).length + 1) := by
  unfold State.drain
  rw [hq]
  exact congrArg (State.ticks · s) q.ticksLeft_eq

/-- The command in progress commits where its remaining words all succeed. -/
theorem State.drain_ok (hok : s.AllOk (q.words.drop q.index).length) : s.drain = s.resumedOk q (q.words.drop q.index) := by
  rw [State.drain_eq_ticks hq, State.ticks_ok _ hq rfl hok]
  rfl

/-- The command in progress stops at the first of its remaining words that fails. -/
theorem State.drain_fail {sent later : List Word} {w : Word} (hw : q.words.drop q.index = sent ++ w :: later)
    (hok : s.AllOk sent.length) (hf : (s.answerAt sent.length).isOk = false) : s.drain = s.resumedFail q sent w := by
  have h0 : (s.sent sent).answerAt 0 = s.answerAt sent.length := by simp [State.answerAt, State.sent]
  rw [State.drain_eq_ticks hq, hw, State.ticks_fail sent hq hw hok hf]
  simp only [State.finishBusFail, State.memWrite, h0, hf]
  simp [State.finish, State.sent, State.resumedFail, codeBusFail, Nat.add_assoc]

end InProgress

/-- A command that writes opens its session, is loaded into the sequencer, and runs to its end. -/
theorem State.runCommand_loads {cmd : Instr} {body : Shadow → Body} {s : State} {ws : List Word} {sh : Shadow}
    (hi : s.Idle) (hb : body s.shadow = .writes ws sh) : s.runCommand cmd body = (s.openSession.load cmd ws sh).drain := by
  simp only [State.runCommand, State.drain_idle hi, hb]

/-- Settles O56: draining is the sequencer's run, every operation begins with it, and a command that writes is such a run from index 0. -/
theorem heldUntilSessionEnd : Obligations.HeldUntilSessionEnd := by
  refine ⟨fun s q hq => ⟨State.drain_ok hq, fun _ _ _ => State.drain_fail hq⟩, fun s => State.drain_idle,
    fun s => ⟨s.drain_seq, fun i => exec_drain i s, fun c => ?_, fun hin => ?_⟩, ?_⟩
  · simp only [State.reportIllegal, State.drain_drain]
  · rw [step, hin]
  · intro s u i ws sh hi hc hu _ hsh hm hex
    have hb := commandBody_of_exec_ok hc hu hsh hm hex
    rw [exec_command hc, State.runCommand_loads hi hb]
    rfl

/-! ### Several blocks (R60) -/

/-- What a step of block `k` can be. -/
theorem Platform.stepAt_cases {blocks after : List State} {k : Nat} (h : Platform.stepAt blocks k = .next after) :
    (blocks[k]? = none ∧ after = blocks) ∨
    ∃ s t, blocks[k]? = some s ∧ step s = .next t ∧ after = blocks.set k t := by
  unfold Platform.stepAt at h
  cases hk : blocks[k]? with
  | none =>
    simp only [hk, Host.Outcome.next.injEq] at h
    exact .inl ⟨rfl, h.symm⟩
  | some s =>
    cases hs : step s with
    | next t =>
      simp only [hk, hs, Host.Outcome.next.injEq] at h
      exact .inr ⟨s, t, rfl, hs, h.symm⟩
    | fault | refused => simp [hk, hs] at h

/-- Settles O58: a step of block `k` replaces that block by its own next state. -/
theorem instancesIndependent : Obligations.InstancesIndependent := by
  intro blocks after k h
  rcases Platform.stepAt_cases h with ⟨hk, rfl⟩ | ⟨s, t, hk, hs, rfl⟩
  · exact ⟨rfl, fun _ _ => rfl, fun s hs => by simp [hk] at hs⟩
  · have hlt := (List.getElem?_eq_some_iff.mp hk).1
    refine ⟨List.length_set, fun j hj => List.getElem?_set_ne hj.symm, fun s' hs' => ?_⟩
    obtain rfl := Option.some.inj (hk.symm.trans hs')
    exact ⟨t, hs, List.getElem?_set_self hlt⟩

end Sys2Proof.Machine
end

section
/-! SUPPORT. The decoder and the encoder (spec/30_encoding.md): a command code by its fields, an output word as a tag above a payload, and
what each decodes to. -/

namespace Sys2Proof

open Machine

/-! ### The fields of a command code (R62) -/

theorem Code.e_append_s (c : Code) : Code.e c ++ Code.s c = c.extractLsb' 2 2 :=
  BitVec.extractLsb'_append_extractLsb'_eq_extractLsb' rfl

/-- A command code is its four fields. -/
theorem assembleCode_fields (c : Code) : assembleCode (Code.op c) (Code.e c) (Code.s c) (Code.w c) = c := by
  have hop : Code.op c ++ Code.e c = c.extractLsb' 3 5 := BitVec.extractLsb'_append_extractLsb'_eq_extractLsb' rfl
  have hs : c.extractLsb' 3 5 ++ Code.s c = c.extractLsb' 2 6 := BitVec.extractLsb'_append_extractLsb'_eq_extractLsb' rfl
  rw [assembleCode, hop, hs]
  exact BitVec.extractLsb'_append_extractLsb'

theorem eq_assembleCode {c : Code} {op : BitVec 4} {e s : BitVec 1} {w : BitVec 2} (hop : Code.op c = op) (he : Code.e c = e)
    (hs : Code.s c = s) (hw : Code.w c = w) : c = assembleCode op e s w := by
  rw [← hop, ← he, ← hs, ← hw, assembleCode_fields]

/-- The two bits above `W` are zero where `E` and `S` are. -/
theorem Code.es_eq_zero_iff {c : Code} : c.extractLsb' 2 2 = 0#2 ↔ Code.e c = 0#1 ∧ Code.s c = 0#1 := by
  rw [← Code.e_append_s]
  generalize Code.e c = e, Code.s c = s
  revert e s
  decide

/-- `E`, `S` and `W` are zero together where the lower four bits are. -/
theorem Code.esw_eq_zero {c : Code} (h : c.extractLsb' 0 4 = 0#4) : Code.e c = 0#1 ∧ Code.s c = 0#1 ∧ Code.w c = 0#2 := by
  have hw : c.extractLsb' 2 2 ++ Code.w c = c.extractLsb' 0 4 := BitVec.extractLsb'_append_extractLsb'_eq_extractLsb' rfl
  rw [← hw, ← Code.e_append_s] at h
  generalize Code.e c = e, Code.s c = s, Code.w c = w at h
  revert e s w
  decide

/-- A field of one bit that is not 1 is 0. -/
theorem bit_eq_zero {b : BitVec 1} (h : b ≠ 1#1) : b = 0#1 := by
  revert b
  decide

theorem Slot.bit_ofBit (b : BitVec 1) : (Slot.ofBit b).bit = b := by
  revert b
  decide

theorem Wave.bits_ofBits (w : BitVec 2) : (Wave.ofBits w).bits = w := by
  revert w
  decide

/-! ### Decoding a command (R63 to R66, R74) -/

/-- What a command without an operand was decoded from. -/
theorem decodePlain_row {c : Code} {op : BitVec 4} {i j : Instr} (hop : Code.op c = op) (h : decodePlain c j = .ok i) :
    i = j ∧ c = assembleCode op 0#1 0#1 0#2 := by
  unfold decodePlain at h
  split_ifs at h with hz
  obtain ⟨he, hs, hw⟩ := Code.esw_eq_zero hz
  exact ⟨(Except.ok.inj h).symm, eq_assembleCode hop he hs hw⟩

/-- What an explicit or an active form was decoded from. -/
theorem decodeSlotted_row {c : Code} {op : BitVec 4} {explicit : Slot → Instr} {active i : Instr} (hop : Code.op c = op)
    (h : decodeSlotted c explicit active = .ok i) :
    (∃ slot, i = explicit slot ∧ c = assembleCode op 1#1 slot.bit 0#2) ∨
      (i = active ∧ c = assembleCode op 0#1 0#1 0#2) := by
  unfold decodeSlotted at h
  split_ifs at h with hw he hs
  · exact .inl ⟨_, (Except.ok.inj h).symm, eq_assembleCode hop he (Slot.bit_ofBit _).symm hw⟩
  · exact .inr ⟨(Except.ok.inj h).symm, eq_assembleCode hop (bit_eq_zero he) hs hw⟩

/-- A command that decodes is encoded as it came, or its instruction ignores the argument (R67). -/
theorem encode_of_decodeCmd {c : Code} {arg : Rat} {i : Instr} (h : decodeCmd c arg = .ok i) :
    encode i = .cmd c arg ∨ (encode i = .cmd c 0 ∧ ∀ a, decodeCmd c a = .ok i) := by
  unfold decodeCmd at h
  split_ifs at h with h1 h2 h3 h4 h5 h6 hz
  · obtain ⟨rfl, rfl⟩ := decodePlain_row h1 h
    exact .inr ⟨rfl, fun _ => rfl⟩
  · rcases decodeSlotted_row h2 h with ⟨slot, rfl, rfl⟩ | ⟨rfl, rfl⟩ <;> exact .inl rfl
  · rcases decodeSlotted_row h3 h with ⟨slot, rfl, rfl⟩ | ⟨rfl, rfl⟩ <;> exact .inl rfl
  · obtain ⟨rfl, rfl⟩ := decodePlain_row h4 h
    exact .inr ⟨rfl, fun _ => rfl⟩
  · obtain ⟨rfl, rfl⟩ := decodePlain_row h5 h
    exact .inr ⟨rfl, fun _ => rfl⟩
  · obtain rfl := Except.ok.inj h
    obtain ⟨he, hs⟩ := Code.es_eq_zero_iff.mp hz
    have hcode : encode (.setwave (Wave.ofBits (Code.w c))) = .cmd c 0 := by
      rw [encode, Wave.bits_ofBits, ← eq_assembleCode h6 he hs rfl]
    exact .inr ⟨hcode, fun _ => by simp [decodeCmd, h6, hz]⟩

/-! ### Decoding an output word (R69 to R73) -/

/-- The upper two bits of a word are the upper two of its upper three. -/
theorem high_of_tag (w : Word) : w.extractLsb' 14 2 = (w.extractLsb' 13 3).extractLsb' 1 2 := by
  ext k hk
  simp [← Nat.add_assoc, Nat.add_lt_add_left hk]

/-- A word is its upper two bits above its payload. -/
theorem word_eq_append (w : Word) : w = w.extractLsb' 14 2 ++ w.extractLsb' 0 14 :=
  (BitVec.extractLsb'_append_extractLsb' (w := 2) (len := 14)).symm

/-- Every word is one of the five tags above its payload. -/
theorem word_cases (w : Word) : (∃ d : Half, w = 0b00#2 ++ d) ∨ (∃ i, ∃ d : Half, w = freqTag i ++ d) ∨
    ∃ i, ∃ x : BitVec 1, ∃ p : Phase, w = phaseTag i ++ x ++ p := by
  have htwo := word_eq_append w
  have hthree : w = w.extractLsb' 13 3 ++ w.extractLsb' 12 1 ++ w.extractLsb' 0 12 := by
    have htop : w.extractLsb' 13 3 ++ w.extractLsb' 12 1 = w.extractLsb' 12 4 :=
      BitVec.extractLsb'_append_extractLsb'_eq_extractLsb' rfl
    rw [htop]
    exact (BitVec.extractLsb'_append_extractLsb' (w := 4) (len := 12)).symm
  have htag2 : ∀ t : BitVec 2, t = 0b00#2 ∨ t = freqTag .s0 ∨ t = freqTag .s1 ∨ t = 0b11#2 := by decide
  have htag3 : ∀ t : BitVec 3, t.extractLsb' 1 2 = 0b11#2 → t = phaseTag .s0 ∨ t = phaseTag .s1 := by decide
  rcases htag2 (w.extractLsb' 14 2) with h | h | h | h
  · exact .inl ⟨_, h ▸ htwo⟩
  · exact .inr (.inl ⟨.s0, _, h ▸ htwo⟩)
  · exact .inr (.inl ⟨.s1, _, h ▸ htwo⟩)
  · rcases htag3 _ (high_of_tag w ▸ h) with h3 | h3
    · exact .inr (.inr ⟨.s0, _, _, h3 ▸ hthree⟩)
    · exact .inr (.inr ⟨.s1, _, _, h3 ▸ hthree⟩)

/-- A decoded word is encoded as it came. -/
theorem encode_decodeOut (w : Word) : encode (decodeOut w).instr = .word w := by
  rcases word_cases w with ⟨d, rfl⟩ | ⟨i, d, rfl⟩ | ⟨i, x, p, rfl⟩
  · rw [decodeOut_control]
    rfl
  · rw [decodeOut_freq]
    cases i <;> rfl
  · rw [decodeOut_phase]
    cases i <;> rfl

/-- The value of a tag above a payload. -/
theorem toNat_append_eq_add {m n : Nat} (t : BitVec m) (d : BitVec n) : (t ++ d).toNat = t.toNat * 2 ^ n + d.toNat := by
  rw [BitVec.toNat_append, ← Nat.shiftLeft_add_eq_or_of_lt d.isLt, Nat.shiftLeft_eq]

/-! ### The legal codes (R66) -/

/-- A command without an operand is accepted where its lower four bits are zero. -/
theorem decodePlain_accepts {c : Code} {j : Instr} : (∃ i, decodePlain c j = .ok i) ↔ c.extractLsb' 0 4 = 0#4 := by
  unfold decodePlain
  split_ifs with hz <;> simp [hz]

/-- A command with a register operand is accepted where `W` is zero and it names a slot with `E`, or none. -/
theorem decodeSlotted_accepts {c : Code} {explicit : Slot → Instr} {active : Instr} :
    (∃ i, decodeSlotted c explicit active = .ok i) ↔ Code.w c = 0#2 ∧ (Code.e c = 1#1 ∨ Code.s c = 0#1) := by
  unfold decodeSlotted
  split_ifs with hw he hs <;> simp [*]

/-- The decoder accepts a command exactly where its code is legal (R66, R74). -/
theorem decodeCmd_accepts (c : Code) (arg : Rat) : (∃ i, decodeCmd c arg = .ok i) ↔ legal c = true := by
  unfold decodeCmd
  split_ifs with h1 h2 h3 h4 h5 h6 hz
  · rw [decodePlain_accepts]
    simp [legal, h1]
  · rw [decodeSlotted_accepts]
    simp [legal, h2]
  · rw [decodeSlotted_accepts]
    simp [legal, h3]
  · rw [decodePlain_accepts]
    simp [legal, h4]
  · rw [decodePlain_accepts]
    simp [legal, h5]
  · simp [legal, h6, Code.es_eq_zero_iff.mp hz]
  · simpa [legal, h6] using fun he hs => hz (Code.es_eq_zero_iff.mpr ⟨he, hs⟩)
  · simp [legal, *]

/-- A legal code is the code of a command, and those are the 13. -/
theorem mem_of_legal {c : Code} (h : legal c = true) :
    c ∈ [0x10#8, 0x20#8, 0x28#8, 0x2C#8, 0x30#8, 0x38#8, 0x3C#8, 0x40#8, 0x50#8, 0x60#8, 0x61#8, 0x62#8, 0x63#8] := by
  obtain ⟨i, hi⟩ := (decodeCmd_accepts c 0).mpr h
  have hcode : encode i = .cmd c 0 := (encode_of_decodeCmd hi).elim id And.left
  cases i with
  | init | setfreqA | setphaseA | togglef | togglep =>
    obtain ⟨rfl, _⟩ := Input.cmd.inj hcode
    decide
  | setfreq slot | setphase slot =>
    obtain ⟨rfl, _⟩ := Input.cmd.inj hcode
    cases slot <;> decide
  | setwave shape =>
    obtain ⟨rfl, _⟩ := Input.cmd.inj hcode
    cases shape <;> decide
  | wCtrl | wFreq0 | wFreq1 | wPhase0 | wPhase1 => cases hcode

/-! ### The fields of a command code as numbers -/

theorem Code.op_eq_ofNat (c : Code) : Code.op c = BitVec.ofNat 4 (c.toNat / 16) := by
  simp [Code.op, BitVec.extractLsb', Nat.shiftRight_eq_div_pow]

theorem Code.low_beq_zero (c : Code) : (c.extractLsb' 0 4 == 0#4) = (c.toNat % 16 == 0) := by
  simp [BitVec.extractLsb', BitVec.toNat_eq, beq_eq_beq]

theorem Code.w_beq_zero (c : Code) : (Code.w c == 0#2) = (c.toNat % 4 == 0) := by
  simp [Code.w, BitVec.extractLsb', BitVec.toNat_eq, beq_eq_beq]

theorem extractLsb'_one {n : Nat} (x : BitVec n) (k : Nat) : x.extractLsb' k 1 = BitVec.ofBool (x.getLsbD k) := by
  ext j hj
  obtain rfl : j = 0 := by omega
  simp

theorem ofBool_beq_one (b : Bool) : (BitVec.ofBool b == 1#1) = b := by cases b <;> rfl

theorem ofBool_beq_zero (b : Bool) : (BitVec.ofBool b == 0#1) = !b := by cases b <;> rfl

/-! ### The obligations -/

/-- Settles O7: row by row; a command's fields, and a word's tag and payload, are read back from where the encoder put them. -/
theorem decodeEncode : Obligations.DecodeEncode := by
  intro i
  cases i with
  | init | setfreqA | setphaseA | togglef | togglep => rfl
  | setfreq slot | setphase slot => cases slot <;> rfl
  | setwave shape => cases shape <;> rfl
  | wCtrl c => exact congrArg (Except.ok ·.instr) (decodeOut_control c)
  | wFreq0 d => exact congrArg (Except.ok ·.instr) (decodeOut_freq .s0 d)
  | wFreq1 d => exact congrArg (Except.ok ·.instr) (decodeOut_freq .s1 d)
  | wPhase0 x p => exact congrArg (Except.ok ·.instr) (decodeOut_phase .s0 x p)
  | wPhase1 x p => exact congrArg (Except.ok ·.instr) (decodeOut_phase .s1 x p)

/-- Settles O8: a word is its tag above its payload, and a legal command is the code of its row. -/
theorem encodeDecode : Obligations.EncodeDecode := by
  refine ⟨fun w i h => ?_, fun c arg i => encode_of_decodeCmd⟩
  obtain rfl := Except.ok.inj h
  exact encode_decodeOut w

/-- Settles O11: the value of a word is its tag's value and its payload's, the tag counted above the payload's bits. -/
theorem outWordDecoding : Obligations.OutWordDecoding := by
  intro w
  rcases word_cases w with ⟨d, rfl⟩ | ⟨i, d, rfl⟩ | ⟨i, x, p, rfl⟩
  · have hv := toNat_append_eq_add 0b00#2 d
    have hd := d.isLt
    rw [decodeOut_control]
    refine ⟨?_, rfl, ?_⟩ <;> rw [hv, BitVec.toNat_ofNat] <;> omega
  · have hv := toNat_append_eq_add (freqTag i) d
    have hd := d.isLt
    rw [decodeOut_freq]
    cases i with
    | s0 | s1 => refine ⟨?_, ?_, rfl, ?_⟩ <;> rw [hv, freqTag, BitVec.toNat_ofNat] <;> omega
  · have hv : (phaseTag i ++ x ++ p).toNat = ((phaseTag i).toNat * 2 ^ 1 + x.toNat) * 2 ^ 12 + p.toNat := by
      rw [toNat_append_eq_add, toNat_append_eq_add]
    have hx := x.isLt
    have hp := p.isLt
    rw [decodeOut_phase]
    cases i with
    | s0 => refine ⟨?_, ?_, rfl, ?_⟩ <;> rw [hv, phaseTag, BitVec.toNat_ofNat] <;> omega
    | s1 => refine ⟨?_, rfl, ?_⟩ <;> rw [hv, phaseTag, BitVec.toNat_ofNat] <;> omega

/-- Settles O9: a legal code decodes, hence is the encoding of a command; and the fields are tested as the code's quotients and bits. -/
theorem legalCodes : Obligations.LegalCodes := by
  refine ⟨fun c => ⟨mem_of_legal, fun h => ?_⟩, fun c => ?_, decodeCmd_accepts⟩
  · revert c
    decide
  · have hlt : c.toNat / 16 < 16 := by omega
    rw [legal, Code.op_eq_ofNat, Code.low_beq_zero, Code.w_beq_zero, Code.e, Code.s, extractLsb'_one, extractLsb'_one,
      ofBool_beq_one, ofBool_beq_zero, ofBool_beq_zero]
    generalize c.toNat / 16 = n at hlt
    interval_cases n <;> simp

/-- Settles O10: each word evaluates to the instruction of its row. -/
theorem decodedWords : Obligations.DecodedWords :=
  ⟨rfl, rfl, rfl, rfl, rfl, rfl, rfl, rfl, rfl, rfl, rfl, rfl, rfl⟩

/-- Settles O2: a command that decodes is run as the instruction it decodes to, and a word always decodes. -/
theorem stepRunsDecoded : Obligations.StepRunsDecoded := by
  intro s inp rest i hin hd
  rw [step, hin]
  cases inp with
  | cmd c arg =>
    have hcmd : decodeCmd c arg = .ok i := hd
    simp only [State.runInput, hcmd]
  | word w =>
    obtain rfl := Except.ok.inj hd
    rfl

end Sys2Proof
end

section
/-! SUPPORT. The words a step emits (spec/30_encoding.md R72), and the active forms (R77). -/

namespace Sys2Proof.Machine

/-! ### Which assembled words R72 allows -/

/-- An assembled control word keeps its value's payload bits. -/
theorem ctrlWord_and (c : Word) (k : Half) : ctrlWord c &&& (0#2 ++ k) = c &&& (0#2 ++ k) := by
  conv_rhs => rw [word_eq_append c]
  rw [ctrlWord_eq_append, BitVec.and_append, BitVec.and_append, BitVec.and_zero, BitVec.and_zero]

theorem emittable_ctrlWord {c : Word} (h : c &&& 0x03D5#16 = 0#16) : emittable (ctrlWord c) = true := by
  have htag : BitVec.extractLsb' 14 2 (ctrlWord c) = 0b00#2 := by rw [ctrlWord_eq_append, tag_of_append]
  have hbits : ctrlWord c &&& 0x03D5#16 = 0#16 := (ctrlWord_and c 0x03D5#14).trans h
  rw [emittable, if_pos htag, hbits]
  rfl

theorem emittable_freqWord (i : Slot) (h : Half) : emittable (freqWord i h) = true := by
  have htag : BitVec.extractLsb' 14 2 (freqWord i h) = freqTag i := by rw [freqWord_eq_append, tag_of_append]
  rw [emittable, htag]
  cases i <;> rfl

theorem emittable_phaseWord (i : Slot) (v : Phase) : emittable (phaseWord i v) = true := by
  have hmask : 0x1000#16 = 0#3 ++ 1#1 ++ 0#12 := rfl
  have hbit : phaseWord i v &&& 0x1000#16 = 0#16 := by
    rw [phaseWord_eq_append, hmask, BitVec.and_append, BitVec.and_append, BitVec.and_zero, BitVec.and_zero, BitVec.zero_and]
    rfl
  have htag : BitVec.extractLsb' 14 2 (phaseWord i v) = 0b11#2 := by
    have hthree : BitVec.extractLsb' 13 3 (phaseTag i ++ 0#1 ++ v : Word) = phaseTag i :=
      (BitVec.extractLsb'_append_eq_of_le (by decide)).trans BitVec.extractLsb'_append_eq_left
    rw [phaseWord_eq_append, high_of_tag, hthree]
    cases i <;> rfl
  rw [emittable, htag, hbit]
  rfl

/-! ### The words of a command -/

/-- The words a command other than INIT may write when it stages `sh` (R92, R97, R100 to R102): its control word is the staged one. -/
inductive Emits (sh : Shadow) : Word → Prop where
  | ctrl {c : Word} : sh.ctrl = c → Emits sh (ctrlWord c)
  | freq (i : Slot) (h : Half) : Emits sh (freqWord i h)
  | phase (i : Slot) (v : Phase) : Emits sh (phaseWord i v)

/-- Where the staged control word has the shape of R32, each of these words is allowed outside INIT. -/
theorem Emits.emittable {sh : Shadow} {w : Word} (h : Emits sh w) (hs : sh.CtrlShape) : emittable w = true := by
  cases h with
  | ctrl hc =>
    subst hc
    exact emittable_ctrlWord (word_and_eq_of_narrower (d := 0#16) (hs.trans BitVec.zero_and.symm) (by decide))
  | freq i h => exact emittable_freqWord i h
  | phase i v => exact emittable_phaseWord i v

/-- A transaction of R93 is its control word and halves of the value. -/
theorem freqShape_words (i : Slot) (v old : Freq) (ctrl : Word) :
    ∀ w ∈ (freqShape i v old ctrl).2, w = ctrlWord (freqShape i v old ctrl).1 ∨ ∃ h, w = freqWord i h := by
  unfold freqShape
  split_ifs <;> simp

/-- The words of a SETFREQ form once the value is known (R92). -/
theorem setFreqValue_emits {sh sh' : Shadow} {i : Slot} {v : Freq} {ws : List Word}
    (h : setFreqValue sh i v = .writes ws sh') : ∀ w ∈ ws, Emits sh' w := by
  unfold setFreqValue at h
  split_ifs at h
  cases h
  intro w hw
  rcases freqShape_words _ _ _ _ w hw with rfl | ⟨d, rfl⟩
  · exact .ctrl (Shadow.ctrl_setFreq _ i v)
  · exact .freq i d

theorem setFreqBody_emits {m : Clock} {sh sh' : Shadow} {i : Slot} {hz : Rat} {ws : List Word}
    (h : setFreqBody m sh i hz = .writes ws sh') : ∀ w ∈ ws, Emits sh' w := by
  unfold setFreqBody at h
  split_ifs at h
  exact setFreqValue_emits h

theorem setPhaseBody_emits {sh sh' : Shadow} {i : Slot} {deg : Rat} {ws : List Word}
    (h : setPhaseBody sh i deg = .writes ws sh') : ∀ w ∈ ws, Emits sh' w := by
  unfold setPhaseBody setPhaseValue at h
  split_ifs at h
  cases h
  exact List.forall_mem_singleton.mpr (.phase i _)

/-- A command other than INIT writes no other words than these. -/
theorem commandBody_emits {m : Clock} {i : Instr} {sh sh' : Shadow} {ws : List Word} (hinit : i ≠ .init)
    (h : commandBody m i sh = .writes ws sh') : ∀ w ∈ ws, Emits sh' w := by
  cases i with
  | init => exact absurd rfl hinit
  | setfreq | setfreqA => exact setFreqBody_emits h
  | setphase | setphaseA => exact setPhaseBody_emits h
  | togglef | togglep => cases h; exact List.forall_mem_singleton.mpr (.ctrl rfl)
  | setwave shape =>
    simp only [commandBody, setWaveBody] at h
    split_ifs at h
    cases h
    exact List.forall_mem_singleton.mpr (.ctrl rfl)
  | wCtrl | wFreq0 | wFreq1 | wPhase0 | wPhase1 => cases h

/-- The words of INIT are allowed in INIT: only its control words have a bit R72 excludes elsewhere, RESET. -/
theorem initWords_emittable : ∀ w ∈ initWords, emittableInit w = true :=
  List.all_eq_true.mp (by decide)

/-! ### The words of a step -/

theorem wordsOf_append (es fs : List Event) : wordsOf (es ++ fs) = wordsOf es ++ wordsOf fs := by
  induction es with
  | nil => rfl
  | cons e es ih => cases e <;> simp [wordsOf, ih]

theorem wordsOf_writes (ws : List Word) (b : Bool) : wordsOf (ws.map (fun w => .write w b)) = ws := by
  induction ws with
  | nil => rfl
  | cons w ws ih => exact congrArg (w :: ·) ih

/-- The words a command adds to the trace are among those its body came to. -/
theorem Ends.words {s t : State} {b : Body} (h : Ends s b t) :
    ∃ es, t.trace = s.trace ++ es ∧ ∀ w ∈ wordsOf es, ∃ ws sh, b = .writes ws sh ∧ w ∈ ws := by
  cases h with
  | invalidArg | unchanged => exact ⟨_, rfl, by simp [wordsOf]⟩
  | ok ws sh => exact ⟨_, rfl, fun w hw => ⟨ws, sh, rfl, by simpa [okEvents, wordsOf_append, wordsOf_writes, wordsOf] using hw⟩⟩
  | busFail sent later v sh =>
    refine ⟨_, rfl, fun w hw => ⟨_, sh, rfl, ?_⟩⟩
    have hsent : w ∈ sent ∨ w = v := by simpa [failEvents, wordsOf_append, wordsOf_writes, wordsOf] using hw
    simpa [or_assoc] using hsent.imp_right Or.inl

/-- Only the code 0x10 decodes to INIT. -/
theorem input_of_decode_init {inp : Input} (h : decode inp = .ok .init) : ∃ arg, inp = .cmd 0x10#8 arg := by
  cases inp with
  | cmd c arg =>
    obtain ⟨a, hcode⟩ : ∃ a, encode .init = .cmd c a :=
      (encode_of_decodeCmd h).elim (fun he => ⟨arg, he⟩) (fun he => ⟨0, he.1⟩)
    exact ⟨arg, congrArg (Input.cmd · arg) (Input.cmd.inj hcode).1.symm⟩
  | word w => cases (encodeDecode.1 w .init h)

/-- Settles O45: a command's words are its staged control word, whose shape the invariant keeps, and register words, or INIT's own. -/
theorem emittedWordsAllowed : Obligations.EmittedWordsAllowed := by
  intro s t hs h
  rcases step_cases h with ⟨_, rfl⟩ | ⟨c, arg, rest, _, rfl⟩ | ⟨inp, rest, i, hin, hd, he⟩
  · exact ⟨[], by simp [State.drain_idle hs.idle], .inl (by simp [wordsOf])⟩
  · rw [State.reportIllegal_idle (s := { s with inputs := rest }) hs.idle]
    exact ⟨[], (List.append_nil _).symm, .inl (by simp [wordsOf])⟩
  · rcases exec_cases (s := { s with inputs := rest }) hs.idle he with ⟨_, hends⟩ | ⟨_, ch, rfl⟩
    · obtain ⟨es, ht, hwords⟩ := hends.words
      refine ⟨es, ht, ?_⟩
      by_cases hinit : i = .init
      · subst hinit
        obtain ⟨arg, rfl⟩ := input_of_decode_init hd
        refine .inr ⟨⟨arg, rest, hin⟩, fun w hw => ?_⟩
        obtain ⟨ws, sh, hb, hmem⟩ := hwords w hw
        cases hb
        exact initWords_emittable w hmem
      · refine .inl fun w hw => ?_
        obtain ⟨ws, sh, hb, hmem⟩ := hwords w hw
        exact (commandBody_emits hinit hb w hmem).emittable ((commandBody_stages hb).ctrlShape hs.shape)
    · exact ⟨[], (List.append_nil _).symm, .inl (by simp [wordsOf])⟩

/-! ### The active forms (R77) -/

/-- A field of one bit is that bit. -/
theorem fieldSet_twoPow (c : Word) (k : Nat) (hk : k < 16) : fieldSet c (BitVec.twoPow 16 k) = c.getLsbD k := by
  have hbit : BitVec.twoPow 16 k ≠ 0#16 := fun h => by simpa [hk] using congrArg (BitVec.getLsbD · k) h
  rw [fieldSet, BitVec.and_twoPow]
  cases c.getLsbD k <;> simp [hbit]

theorem Shadow.activeFreq_eq (sh : Shadow) : sh.activeFreq = if sh.ctrl.getLsbD 11 then .s1 else .s0 := by
  rw [Shadow.activeFreq, show maskFSELECT = BitVec.twoPow 16 11 from rfl, fieldSet_twoPow _ _ (by decide)]

theorem Shadow.activePhase_eq (sh : Shadow) : sh.activePhase = if sh.ctrl.getLsbD 10 then .s1 else .s0 := by
  rw [Shadow.activePhase, show maskPSELECT = BitVec.twoPow 16 10 from rfl, fieldSet_twoPow _ _ (by decide)]

/-- Commands whose bodies come to the same on an idle block do the same to it. -/
theorem exec_eq_of_body_eq {i j : Instr} {s : State} (hi : i.isCommand = true) (hj : j.isCommand = true) (hs : s.Idle)
    (hb : commandBody s.mclk i s.shadow = commandBody s.mclk j s.shadow) : exec i s = exec j s := by
  rw [exec_command hj, exec_command_iff hi hs, hb, ← exec_command_iff hj hs, exec_command hj]

/-- Settles O24: an active form's body is the explicit form's on the slot read from the select bit. -/
theorem activeFormsResolve : Obligations.ActiveFormsResolve := by
  intro s q hi
  rw [← Shadow.activeFreq_eq, ← Shadow.activePhase_eq]
  exact ⟨exec_eq_of_body_eq rfl rfl hi rfl, exec_eq_of_body_eq rfl rfl hi rfl⟩

end Sys2Proof.Machine
end

section
/-! SUPPORT. The textual form of a command (spec/30_encoding.md R76): its letter case and comments, its numbers, and the tokens of each
line form. -/

namespace Sys2Proof.Machine

/-! ### Letter case and comments -/

/-- Lowering the letters before or after the comment is cut comes to the same. -/
theorem Asm.lineTokens_eq (l : List Char) :
    Asm.lineTokens l = Asm.tokens [] ((l.map Char.toLower).takeWhile (fun c => c != ';')) := by
  have hcut : (fun c : Char => c != ';') ∘ Char.toLower = fun c => c != ';' := by
    funext c
    simp [bne, Asm.toLower_eq_semicolon, beq_eq_decide]
  rw [Asm.lineTokens, List.takeWhile_map, hcut]

theorem Asm.lineTokens_comment (l comment : List Char) : Asm.lineTokens (l ++ ';' :: comment) = Asm.lineTokens l := by
  have hcut : (l ++ ';' :: comment).takeWhile (fun c => c != ';') = l.takeWhile (fun c => c != ';') := by
    induction l with
    | nil => rfl
    | cons c l ih => simp only [List.cons_append, List.takeWhile_cons, ih]
  rw [Asm.lineTokens, hcut, Asm.lineTokens]

/-- A line is read through its tokens alone. -/
theorem Asm.assemble_congr {l m : List Char} (h : Asm.lineTokens l = Asm.lineTokens m) : Asm.assemble l = Asm.assemble m := by
  rw [Asm.assemble, h, Asm.assemble]

/-! ### Numbers -/

/-- The text of a magnitude is read as a numerator and a denominator of its value. -/
theorem IsMagnitude.magnitude {t : List Char} {q : Rat} (h : IsMagnitude t q) :
    ∃ n d, Asm.magnitude t = some (n, d) ∧ q = n / d := by
  have hslash {ds : List (Fin 10)} : '/' ∉ digitChars ds := fun hm =>
    have ⟨_, hne, _, _⟩ := Asm.mem_digitChars hm
    hne rfl
  have hdot {ds : List (Fin 10)} : '.' ∉ digitChars ds := fun hm =>
    have ⟨_, _, hne, _⟩ := Asm.mem_digitChars hm
    hne rfl
  cases h with
  | whole is hi =>
    refine ⟨decimal is, 1, ?_, by simp⟩
    simp [Asm.magnitude, Asm.splitAt_none hslash, Asm.splitAt_none hdot, Asm.natural_digitChars hi]
  | fraction is fs hi hf =>
    have hnone : '/' ∉ digitChars is ++ '.' :: digitChars fs := by simp [hslash]
    refine ⟨decimal is * 10 ^ fs.length + decimal fs, 10 ^ fs.length, ?_, ?_⟩
    · simp [Asm.magnitude, Asm.splitAt_none hnone, Asm.splitAt_mark hdot, Asm.natural_digitChars hi,
        Asm.natural_digitChars hf, Asm.length_digitChars]
    · push_cast
      field_simp
  | ratio ps qs hp hq h0 =>
    refine ⟨decimal ps, decimal qs, ?_, rfl⟩
    simp [Asm.magnitude, Asm.splitAt_mark hslash, Asm.natural_digitChars hp, Asm.natural_digitChars hq, h0]

/-- A magnitude is a token: it is not empty, and each character stands for itself and is no sign. -/
theorem IsMagnitude.chars {t : List Char} {q : Rat} (h : IsMagnitude t q) :
    t ≠ [] ∧ ∀ c ∈ t, Asm.Plain c ∧ c ≠ '-' := by
  have hdigits {c : Char} {ds : List (Fin 10)} (hc : c ∈ digitChars ds) : Asm.Plain c ∧ c ≠ '-' :=
    have ⟨hplain, _, _, hsign⟩ := Asm.mem_digitChars hc
    ⟨hplain, hsign⟩
  have hmark : (Asm.Plain '.' ∧ '.' ≠ '-') ∧ Asm.Plain '/' ∧ '/' ≠ '-' := by
    unfold Asm.Plain
    decide
  cases h with
  | whole is hi => exact ⟨by simpa [digitChars] using hi, fun c => hdigits⟩
  | fraction is fs | ratio ps qs =>
    refine ⟨by simp, fun c hc => ?_⟩
    rcases List.mem_append.mp hc with hc | hc
    · exact hdigits hc
    · rcases List.mem_cons.mp hc with rfl | hc
      · simp [hmark]
      · exact hdigits hc

/-- The text of a number is read at its exact value. -/
theorem IsNumber.number {t : List Char} {q : Rat} (h : IsNumber t q) : Asm.number t = some q := by
  cases h with
  | plain t q hm =>
    obtain ⟨n, d, ht, rfl⟩ := hm.magnitude
    obtain ⟨hne, hchars⟩ := hm.chars
    obtain ⟨c, cs, rfl⟩ := List.exists_cons_of_ne_nil hne
    have hsign : c ≠ '-' := (hchars c (by simp)).2
    simp [Asm.number, hsign, ht, Rat.mkRat_eq_div]
  | minus t q hm =>
    obtain ⟨n, d, ht, rfl⟩ := hm.magnitude
    simp [Asm.number, ht, Rat.mkRat_eq_div, neg_div]

/-! ### The tokens of a line -/

/-- A token of one word: characters that stand for themselves, one at least. -/
def Asm.IsToken (t : List Char) : Prop := t ≠ [] ∧ ∀ c ∈ t, Asm.Plain c

/-- The same, as a test that evaluates. -/
theorem Asm.isToken_of_all {t : List Char} (hne : t ≠ [])
    (h : t.all (fun c => c != ' ' && c != '\t' && c != ',' && c != ';' && c.toLower == c) = true) : Asm.IsToken t :=
  ⟨hne, Asm.plain_of_all h⟩

/-- The text of a number is a token. -/
theorem IsNumber.isToken {t : List Char} {q : Rat} (h : IsNumber t q) : Asm.IsToken t := by
  cases h with
  | plain t q hm => exact ⟨hm.chars.1, fun c hc => (hm.chars.2 c hc).1⟩
  | minus t q hm =>
    have hsign : Asm.Plain '-' := by
      unfold Asm.Plain
      decide
    exact ⟨List.cons_ne_nil _ _, List.forall_mem_cons.mpr ⟨hsign, fun c hc => (hm.chars.2 c hc).1⟩⟩

/-- No comment begins in a token, and lowering its letters changes nothing. -/
theorem Asm.IsToken.clean {t : List Char} (h : Asm.IsToken t) : ∀ c ∈ t, c ≠ ';' ∧ c.toLower = c := by
  intro c hc
  obtain ⟨_, _, _, hclean⟩ := h.2 c hc
  exact hclean

/-- The same of blanks. -/
theorem Asm.clean_blanks (n : Nat) : ∀ c ∈ blanks n, c ≠ ';' ∧ c.toLower = c := by
  intro c hc
  obtain rfl := List.eq_of_mem_replicate hc
  decide

/-- The last token of a line. -/
theorem Asm.tokens_last {t : List Char} (h : Asm.IsToken t) : Asm.tokens [] t = [t] := by
  have hread := Asm.tokens_word h.2 [] []
  rwa [List.append_nil, List.nil_append, Asm.tokens_end h.1] at hread

/-- A mnemonic and one operand. -/
theorem Asm.lineTokens_operand {m t : List Char} (hm : Asm.IsToken m) (ht : Asm.IsToken t) (n : Nat) :
    Asm.lineTokens (m ++ blanks (n + 1) ++ t) = [m, t] := by
  rw [Asm.lineTokens_clean, List.append_assoc, Asm.tokens_word hm.2, List.nil_append, Asm.tokens_end_blank hm.1,
    Asm.tokens_last ht]
  simp only [List.forall_mem_append]
  exact ⟨⟨hm.clean, Asm.clean_blanks _⟩, ht.clean⟩

/-- A mnemonic, a register with its comma, and one operand. -/
theorem Asm.lineTokens_register {m r t : List Char} (hm : Asm.IsToken m) (hr : Asm.IsToken r) (ht : Asm.IsToken t) (n k : Nat) :
    Asm.lineTokens (m ++ blanks (n + 1) ++ (r ++ [',']) ++ blanks k ++ t) = [m, r, [','], t] := by
  rw [Asm.lineTokens_clean]
  · simp only [List.append_assoc]
    rw [Asm.tokens_word hm.2, List.nil_append, Asm.tokens_end_blank hm.1, Asm.tokens_word hr.2, List.nil_append,
      List.singleton_append, Asm.tokens_end_comma hr.1, Asm.tokens_blanks, Asm.tokens_last ht]
  · simp only [List.forall_mem_append, List.forall_mem_singleton]
    exact ⟨⟨⟨⟨hm.clean, Asm.clean_blanks _⟩, hr.clean, by decide⟩, Asm.clean_blanks _⟩, ht.clean⟩

/-! ### The line forms with operands -/

theorem Asm.assemble_setwave {t : List Char} {shape : Wave} (ht : Asm.IsToken t) (hs : Asm.shape t = some shape) (a : Nat) :
    Asm.assemble ("setwave".toList ++ blanks (a + 1) ++ t) = some (.setwave shape) := by
  have hm : Asm.IsToken "setwave".toList := Asm.isToken_of_all (by decide) (by decide)
  rw [Asm.assemble, Asm.lineTokens_operand hm ht]
  simp [hs]

section Number

variable {t : List Char} {q : Rat} (h : IsNumber t q) (a b : Nat)
include h

theorem Asm.assemble_setfreqA : Asm.assemble ("setfreq".toList ++ blanks (a + 1) ++ t) = some (.setfreqA q) := by
  have hm : Asm.IsToken "setfreq".toList := Asm.isToken_of_all (by decide) (by decide)
  rw [Asm.assemble, Asm.lineTokens_operand hm h.isToken]
  simp [h.number]

theorem Asm.assemble_setphaseA : Asm.assemble ("setphase".toList ++ blanks (a + 1) ++ t) = some (.setphaseA q) := by
  have hm : Asm.IsToken "setphase".toList := Asm.isToken_of_all (by decide) (by decide)
  rw [Asm.assemble, Asm.lineTokens_operand hm h.isToken]
  simp [h.number]

theorem Asm.assemble_setfreq {r : List Char} {i : Slot} (hr : Asm.IsToken r) (hi : Asm.register 'f' r = some i) :
    Asm.assemble ("setfreq".toList ++ blanks (a + 1) ++ (r ++ [',']) ++ blanks b ++ t) = some (.setfreq i q) := by
  have hm : Asm.IsToken "setfreq".toList := Asm.isToken_of_all (by decide) (by decide)
  rw [Asm.assemble, Asm.lineTokens_register hm hr h.isToken]
  simp [h.number, hi]

theorem Asm.assemble_setphase {r : List Char} {i : Slot} (hr : Asm.IsToken r) (hi : Asm.register 'p' r = some i) :
    Asm.assemble ("setphase".toList ++ blanks (a + 1) ++ (r ++ [',']) ++ blanks b ++ t) = some (.setphase i q) := by
  have hm : Asm.IsToken "setphase".toList := Asm.isToken_of_all (by decide) (by decide)
  rw [Asm.assemble, Asm.lineTokens_register hm hr h.isToken]
  simp [h.number, hi]

end Number

/-- Settles O59: a line is read through its tokens, which neither letter case nor a comment changes; each form's tokens are its words. -/
theorem assemblerCaseAndComment : Obligations.AssemblerCaseAndComment := by
  refine ⟨fun l m h => Asm.assemble_congr ?_, fun l comment => Asm.assemble_congr (Asm.lineTokens_comment l comment),
    ⟨by decide, by decide, by decide⟩, fun a => ?_, fun t q a b h => ?_⟩
  · rw [Asm.lineTokens_eq, Asm.lineTokens_eq, h]
  · have hsine : Asm.IsToken "sine".toList := Asm.isToken_of_all (by decide) (by decide)
    have htriangle : Asm.IsToken "triangle".toList := Asm.isToken_of_all (by decide) (by decide)
    have hdiv2 : Asm.IsToken "square_div2".toList := Asm.isToken_of_all (by decide) (by decide)
    have hsquare : Asm.IsToken "square".toList := Asm.isToken_of_all (by decide) (by decide)
    exact ⟨Asm.assemble_setwave hsine rfl a, Asm.assemble_setwave htriangle rfl a, Asm.assemble_setwave hdiv2 rfl a,
      Asm.assemble_setwave hsquare rfl a⟩
  · have hf0 : Asm.IsToken "f0".toList := Asm.isToken_of_all (by decide) (by decide)
    have hf1 : Asm.IsToken "f1".toList := Asm.isToken_of_all (by decide) (by decide)
    have hp0 : Asm.IsToken "p0".toList := Asm.isToken_of_all (by decide) (by decide)
    have hp1 : Asm.IsToken "p1".toList := Asm.isToken_of_all (by decide) (by decide)
    rw [show "f0,".toList = "f0".toList ++ [','] by decide, show "f1,".toList = "f1".toList ++ [','] by decide,
      show "p0,".toList = "p0".toList ++ [','] by decide, show "p1,".toList = "p1".toList ++ [','] by decide]
    exact ⟨Asm.assemble_setfreq h a b hf0 rfl, Asm.assemble_setfreq h a b hf1 rfl, Asm.assemble_setfreqA h a,
      Asm.assemble_setphase h a b hp0 rfl, Asm.assemble_setphase h a b hp1 rfl, Asm.assemble_setphaseA h a⟩

end Sys2Proof.Machine
end

section
/-! SUPPORT. The encoder (spec/40_encoder.md): the word assembly as values, a frequency and a phase as the exact quotient rounded down,
what follows from that about end points and order, and the halves of a frequency value. -/

namespace Sys2Proof.Machine

/-! ### Frequency to register (R83, R84, R89) -/

theorem freqValid_iff (m : Clock) (hz : Rat) : freqValid m hz = true ↔ 0 ≤ hz ∧ hz ≤ m.hz :=
  decide_eq_true_iff

/-- Multiplying by the clock's denominator and dividing by its numerator is dividing by the clock. -/
theorem scaleFloor_clock (m : Clock) (hz : Rat) (n : Int) :
    scaleFloor hz (n * m.hz.den) m.hz.num = ⌊hz * n / m.hz⌋ := by
  have hden : (m.hz.den : Rat) ≠ 0 := by exact_mod_cast m.hz.den_nz
  have hquot : hz * (n * m.hz.den) / m.hz.num = hz * n / m.hz := by
    conv_rhs => rw [← Rat.num_div_den m.hz]
    field_simp
  rw [scaleFloor_eq _ _ _ (Rat.num_pos.mpr m.pos)]
  push_cast
  rw [hquot]

/-- R84 as a value. The upper bound on `hz` is not needed, as the quotient is saturated. -/
theorem frequencyToRegister_toNat (m : Clock) {hz : Rat} (h0 : 0 ≤ hz) :
    ((frequencyToRegister m hz).toNat : Int) = min ⌊hz * 2 ^ 28 / m.hz⌋ (2 ^ 28 - 1) := by
  have hfloor : scaleFloor hz (268435456 * m.hz.den) m.hz.num = ⌊hz * 2 ^ 28 / m.hz⌋ := by
    rw [scaleFloor_clock]
    norm_num
  have hnonneg : 0 ≤ ⌊hz * 2 ^ 28 / m.hz⌋ := Int.floor_nonneg.mpr (div_nonneg (by positivity) m.pos.le)
  rw [frequencyToRegister, hfloor, BitVec.toNat_ofNat]
  omega

theorem frequencyToRegister_mono (m : Clock) {a b : Rat} (h0 : 0 ≤ a) (hab : a ≤ b) :
    frequencyToRegister m a ≤ frequencyToRegister m b := by
  have hpos := m.pos
  have hquot : a * 2 ^ 28 / m.hz ≤ b * 2 ^ 28 / m.hz := by gcongr
  rw [BitVec.le_def, ← Int.ofNat_le, frequencyToRegister_toNat m h0, frequencyToRegister_toNat m (h0.trans hab)]
  exact min_le_min_right _ (Int.floor_mono hquot)

theorem frequencyToRegister_zero (m : Clock) : frequencyToRegister m 0 = 0#28 := by
  have h := frequencyToRegister_toNat m le_rfl
  rw [zero_mul, zero_div, Int.floor_zero] at h
  exact BitVec.eq_of_toNat_eq (Int.ofNat_inj.mp (h.trans (by decide)))

theorem frequencyToRegister_clock (m : Clock) : frequencyToRegister m m.hz = 0xFFFFFFF#28 := by
  have hquot : m.hz * 2 ^ 28 / m.hz = ((2 ^ 28 : Int) : Rat) := by
    rw [mul_div_cancel_left₀ _ m.pos.ne']
    norm_num
  have h := frequencyToRegister_toNat m m.pos.le
  rw [hquot, Int.floor_intCast] at h
  exact BitVec.eq_of_toNat_eq (Int.ofNat_inj.mp (h.trans (by decide)))

/-- Settles O14: the two integer factors stand for the clock as one rational, so the integer division is the floor of R84. -/
theorem frequencyIsFloor : Obligations.FrequencyIsFloor :=
  fun m hz => ⟨freqValid_iff m hz, fun h0 _ => frequencyToRegister_toNat m h0⟩

/-- Settles O16: the quotient, its floor and the saturation are each monotone, and at MCLK the quotient is `2^28`. -/
theorem frequencyMonotone : Obligations.FrequencyMonotone :=
  fun m => ⟨frequencyToRegister_zero m, frequencyToRegister_clock m, fun _ _ h0 hab _ => frequencyToRegister_mono m h0 hab⟩

/-! ### Phase to register (R85, R86, R89) -/

theorem phaseValid_iff (deg : Rat) : phaseValid deg = true ↔ 0 ≤ deg ∧ deg ≤ 360 :=
  decide_eq_true_iff

theorem phase_floor_nonneg {deg : Rat} (h0 : 0 ≤ deg) : 0 ≤ ⌊deg * 4096 / 360⌋ :=
  Int.floor_nonneg.mpr (by positivity)

/-- R86 as a value. -/
theorem phaseToRegister_toNat {deg : Rat} (h0 : 0 ≤ deg) :
    ((phaseToRegister deg).toNat : Int) = ⌊deg * 4096 / 360⌋ % 4096 := by
  have hfloor : scaleFloor deg 4096 360 = ⌊deg * 4096 / 360⌋ := by
    rw [scaleFloor_eq _ _ _ (by decide)]
    norm_num
  have hnonneg := phase_floor_nonneg h0
  rw [phaseToRegister, hfloor, BitVec.toNat_ofNat]
  omega

/-- Below 360 degrees nothing wraps around (R89 (1)). -/
theorem phaseToRegister_toNat_of_lt {deg : Rat} (h0 : 0 ≤ deg) (h360 : deg < 360) :
    ((phaseToRegister deg).toNat : Int) = ⌊deg * 4096 / 360⌋ := by
  have hlt : ⌊deg * 4096 / 360⌋ < 4096 := Int.floor_lt.mpr (by push_cast; linarith)
  rw [phaseToRegister_toNat h0, Int.emod_eq_of_lt (phase_floor_nonneg h0) hlt]

theorem phaseToRegister_mono {a b : Rat} (h0 : 0 ≤ a) (hab : a ≤ b) (h360 : b < 360) :
    phaseToRegister a ≤ phaseToRegister b := by
  have hquot : a * 4096 / 360 ≤ b * 4096 / 360 := by gcongr
  rw [BitVec.le_def, ← Int.ofNat_le, phaseToRegister_toNat_of_lt h0 (hab.trans_lt h360),
    phaseToRegister_toNat_of_lt (h0.trans hab) h360]
  exact Int.floor_mono hquot

/-- Settles O15: `scaleFloor` is the floor of the quotient, which no valid phase makes negative. -/
theorem phaseIsFloor : Obligations.PhaseIsFloor :=
  fun deg => ⟨phaseValid_iff deg, fun h0 _ => phaseToRegister_toNat h0⟩

/-- Settles O17: below 360 the register is the floor itself, which is monotone; the end points are evaluated. -/
theorem phaseMonotone : Obligations.PhaseMonotone :=
  ⟨by decide, by decide, fun _ _ => phaseToRegister_mono⟩

/-! ### Word assembly (R79 to R82) -/

theorem ctrlWord_toNat (c : Word) : (ctrlWord c).toNat = c.toNat % 0x4000 := by
  rw [ctrlWord_eq_append, toNat_append_eq_add, BitVec.extractLsb'_toNat, Nat.shiftRight_zero]
  exact Nat.zero_add _

theorem freqWord_toNat (i : Slot) (h : Half) : (freqWord i h).toNat = (freqTag i).toNat * 2 ^ 14 + h.toNat := by
  rw [freqWord_eq_append, toNat_append_eq_add]

theorem phaseWord_toNat (i : Slot) (v : Phase) : (phaseWord i v).toNat = (phaseTag i).toNat * 2 ^ 13 + v.toNat := by
  rw [phaseWord_eq_append, toNat_append_eq_add, toNat_append_eq_add]
  simp [Nat.mul_assoc]

/-- Settles O12: an assembled word is its tag above its payload, so its value is the tag's value plus the payload's. -/
theorem wordAssembly : Obligations.WordAssembly :=
  ⟨⟨rfl, rfl, rfl, rfl, rfl⟩, ctrlWord_toNat, fun h => ⟨freqWord_toNat .s0 h, freqWord_toNat .s1 h⟩,
    fun v => ⟨phaseWord_toNat .s0 v, phaseWord_toNat .s1 v⟩⟩

/-! ### The halves of a frequency value as numbers (R87) -/

theorem lower14_toNat (v : Freq) : (lower14 v).toNat = v.toNat % 2 ^ 14 := by
  rw [lower14_eq_extractLsb', BitVec.extractLsb'_toNat, Nat.shiftRight_zero]

theorem upper14_toNat (v : Freq) : (upper14 v).toNat = v.toNat / 2 ^ 14 := by
  have hv := v.isLt
  rw [upper14_eq_extractLsb', BitVec.extractLsb'_toNat, Nat.shiftRight_eq_div_pow]
  exact Nat.mod_eq_of_lt (by omega)

/-- Settles O18: the two masks take the lower and the upper 14 bits, whose values are the remainder and the quotient by `2^14`. -/
theorem splitRecombines : Obligations.SplitRecombines :=
  fun v => ⟨lower14_toNat v, upper14_toNat v, upper14_append_lower14 v⟩

end Sys2Proof.Machine
end

section
/-! SUPPORT. INIT (spec/41_init.md): its words as values, and what it ends in. -/

namespace Sys2Proof.Machine

/-- The assembled words of INIT are the list of R90. -/
theorem initWords_values : initWords =
    [0x0100#16, 0x2100#16, 0x4000#16, 0x4000#16, 0x2100#16, 0x8000#16, 0x8000#16, 0xC000#16, 0xE000#16, 0x0000#16] := by
  decide

/-- INIT writes its words and stages its registers whatever the shadow holds. -/
theorem exec_init_iff {s t : State} (hi : s.Idle) : exec .init s = .next t ↔ Ends s (.writes initWords initShadow) t :=
  exec_command_iff rfl hi

/-- Settles O19: INIT's body is one word list, so the answers alone decide between its commit and the stop at a word. -/
theorem initRule : Obligations.InitRule := by
  unfold Obligations.InitRule
  rw [← initWords_values]
  refine ⟨fun _ => rfl, fun s hi hok => ?_, fun s sent later w hi hws hok hf => ?_⟩
  · exact (exec_init_iff hi).mpr (.ok initWords initShadow hok)
  · rw [exec_init_iff hi, hws]
    exact .busFail sent later w initShadow hok hf

end Sys2Proof.Machine
end

section
/-! SUPPORT. SETFREQ and SETFREQ.A (spec/42_frequency.md): the transaction shape with its fields as bits, and what a frequency command ends in
when every word of its transaction succeeds. -/

namespace Sys2Proof.Machine

/-! ### The transaction shape (R93) -/

/-- The part of the control word a transaction copies: the complement of SHAPEMASK (R17). -/
theorem not_shapeMask : ~~~shapeMask = 0xCFFF#16 := by decide

/-- Settles O20: the halves compared and sent are the two 14-bit fields of the value, and SHAPEMASK, HLB and B28 are constants. -/
theorem transactionShape : Obligations.TransactionShape := by
  intro i v old ctrl _
  simp only [freqShape, upper14_eq_extractLsb', lower14_eq_extractLsb', not_shapeMask, maskHLB, maskB28]

/-- Values that agree in both halves are equal (R87). -/
theorem freq_eq_of_halves {v old : Freq} (hupper : v.extractLsb' 14 14 = old.extractLsb' 14 14)
    (hlower : v.extractLsb' 0 14 = old.extractLsb' 0 14) : v = old := by
  rw [← upper14_eq_extractLsb', ← upper14_eq_extractLsb'] at hupper
  rw [← lower14_eq_extractLsb', ← lower14_eq_extractLsb'] at hlower
  rw [← upper14_append_lower14 v, hupper, hlower, upper14_append_lower14]

section Shapes

variable {v old : Freq} (i : Slot) (ctrl : Word)

theorem freqShape_lowerOnly (hne : v ≠ old) (hupper : v.extractLsb' 14 14 = old.extractLsb' 14 14) :
    freqShape i v old ctrl =
      (ctrl &&& 0xCFFF#16, [ctrlWord (ctrl &&& 0xCFFF#16), freqWord i (v.extractLsb' 0 14)]) := by
  rw [transactionShape i v old ctrl hne, if_pos hupper]

theorem freqShape_upperOnly (hne : v ≠ old) (hlower : v.extractLsb' 0 14 = old.extractLsb' 0 14) :
    freqShape i v old ctrl =
      (ctrl &&& 0xCFFF#16 ||| 0x1000#16,
        [ctrlWord (ctrl &&& 0xCFFF#16 ||| 0x1000#16), freqWord i (v.extractLsb' 14 14)]) := by
  have hupper : v.extractLsb' 14 14 ≠ old.extractLsb' 14 14 := fun h => hne (freq_eq_of_halves h hlower)
  rw [transactionShape i v old ctrl hne, if_neg hupper, if_pos hlower]

theorem freqShape_full (hupper : v.extractLsb' 14 14 ≠ old.extractLsb' 14 14)
    (hlower : v.extractLsb' 0 14 ≠ old.extractLsb' 0 14) :
    freqShape i v old ctrl =
      (ctrl &&& 0xCFFF#16 ||| 0x2000#16,
        [ctrlWord (ctrl &&& 0xCFFF#16 ||| 0x2000#16), freqWord i (v.extractLsb' 0 14), freqWord i (v.extractLsb' 14 14)]) := by
  have hne : v ≠ old := fun h => hupper (h ▸ rfl)
  rw [transactionShape i v old ctrl hne, if_neg hupper, if_neg hlower]

end Shapes

/-! ### The common body, and both forms of the command (R92, R94, R95) -/

/-- A valid frequency whose value differs from the register writes the words of its shape, and stages the shape's control word with the
value. -/
theorem setFreqBody_of_shape {m : Clock} {sh : Shadow} {slot : Slot} {hz : Rat} {c : Word} {ws : List Word} (h0 : 0 ≤ hz)
    (hm : hz ≤ m.hz) (hne : frequencyToRegister m hz ≠ sh.freq slot)
    (hshape : freqShape slot (frequencyToRegister m hz) (sh.freq slot) sh.ctrl = (c, ws)) :
    setFreqBody m sh slot hz = .writes ws ({ sh with ctrl := c }.setFreq slot (frequencyToRegister m hz)) := by
  rw [setFreqBody, if_pos ((freqValid_iff m hz).mpr ⟨h0, hm⟩), setFreqValue, if_neg hne, hshape]

/-- Either form of the command, on the slot it targets, is the explicit form on that slot. -/
theorem exec_setfreq_form {s : State} {i : Instr} {slot : Slot} {hz : Rat} (hi : s.Idle)
    (hform : i = .setfreq slot hz ∨ (i = .setfreqA hz ∧ slot = if s.shadow.ctrl.getLsbD 11 then .s1 else .s0)) :
    exec i s = exec (.setfreq slot hz) s := by
  rcases hform with rfl | ⟨rfl, rfl⟩
  · rfl
  · exact (activeFormsResolve s hz hi).1

/-- SETFREQ ends OK where every word of its shape succeeds, committing what the common body stages. -/
theorem exec_setfreq_ok {s : State} {slot : Slot} {hz : Rat} {c : Word} {ws : List Word} (hi : s.Idle) (h0 : 0 ≤ hz)
    (hm : hz ≤ s.mclk.hz) (hne : frequencyToRegister s.mclk hz ≠ s.shadow.freq slot)
    (hshape : freqShape slot (frequencyToRegister s.mclk hz) (s.shadow.freq slot) s.shadow.ctrl = (c, ws))
    (hok : s.AllOk ws.length) :
    exec (.setfreq slot hz) s =
      .next (s.okAfter ws ({ s.shadow with ctrl := c }.setFreq slot (frequencyToRegister s.mclk hz))) := by
  have hbody : commandBody s.mclk (.setfreq slot hz) s.shadow = _ := setFreqBody_of_shape h0 hm hne hshape
  rw [exec_command_iff rfl hi, hbody]
  exact .ok ws _ hok

/-- Settles O21: equal upper halves give the lower-only shape, whose two words succeed. -/
theorem setfreqLowerOnly : Obligations.SetfreqLowerOnly := by
  rintro s i slot hz v c hform hi hok h0 hm rfl hne hupper rfl
  rw [exec_setfreq_form hi hform]
  exact exec_setfreq_ok hi h0 hm hne (freqShape_lowerOnly _ _ hne hupper) hok

/-- Settles O22: equal lower halves of different values give the upper-only shape, whose two words succeed. -/
theorem setfreqUpperOnly : Obligations.SetfreqUpperOnly := by
  rintro s i slot hz v c hform hi hok h0 hm rfl hne hlower rfl
  rw [exec_setfreq_form hi hform]
  exact exec_setfreq_ok hi h0 hm hne (freqShape_upperOnly _ _ hne hlower) hok

/-- Settles O23: two different halves give the full shape, whose three words succeed. -/
theorem setfreqFull : Obligations.SetfreqFull := by
  rintro s i slot hz v c hform hi hok h0 hm rfl hupper hlower rfl
  have hne : frequencyToRegister s.mclk hz ≠ s.shadow.freq slot := fun h => hupper (h ▸ rfl)
  rw [exec_setfreq_form hi hform]
  exact exec_setfreq_ok hi h0 hm hne (freqShape_full _ _ hupper hlower) hok

end Sys2Proof.Machine
end

section
/-! SUPPORT. SETPHASE and SETPHASE.A (spec/43_phase.md): the one word of a phase command, and what a command of one word ends in. -/

namespace Sys2Proof.Machine

/-- A command whose body comes to one word commits where that word succeeds, and stops at it where it fails (R11, R108). -/
theorem exec_oneWord {s : State} {i : Instr} {w : Word} {sh : Shadow} (hc : i.isCommand = true) (hi : s.Idle)
    (hbody : commandBody s.mclk i s.shadow = .writes [w] sh) :
    (s.AllOk 1 → exec i s = .next (s.okAfter [w] sh)) ∧
    ((s.answerAt 0).isOk = false → exec i s = .next (s.busFailAfter [] w)) := by
  rw [exec_command_iff hc hi, exec_command_iff hc hi, hbody]
  have hnone : s.AllOk 0 := fun k hk => absurd hk k.not_lt_zero
  exact ⟨.ok [w] sh, .busFail [] [] w sh hnone⟩

/-- A valid phase whose value differs from the register writes that register's word and stages its value (R97). -/
theorem setPhaseBody_of_ne {sh : Shadow} {slot : Slot} {deg : Rat} (h0 : 0 ≤ deg) (h360 : deg ≤ 360)
    (hne : phaseToRegister deg ≠ sh.phase slot) :
    setPhaseBody sh slot deg =
      .writes [phaseWord slot (phaseToRegister deg)] (sh.setPhase slot (phaseToRegister deg)) := by
  rw [setPhaseBody, if_pos ((phaseValid_iff deg).mpr ⟨h0, h360⟩), setPhaseValue, if_neg hne]

/-- Either form of the command, on the slot it targets, is the explicit form on that slot (R98, R99). -/
theorem exec_setphase_form {s : State} {i : Instr} {slot : Slot} {deg : Rat} (hi : s.Idle)
    (hform : i = .setphase slot deg ∨ (i = .setphaseA deg ∧ slot = if s.shadow.ctrl.getLsbD 10 then .s1 else .s0)) :
    exec i s = exec (.setphase slot deg) s := by
  rcases hform with rfl | ⟨rfl, rfl⟩
  · rfl
  · exact (activeFormsResolve s deg hi).2

/-- Settles O25: either form is the explicit one, whose body is the one word of the target register. -/
theorem setphaseWrites : Obligations.SetphaseWrites := by
  rintro s i slot deg v hform hi h0 h360 rfl hne
  rw [exec_setphase_form hi hform]
  exact exec_oneWord rfl hi (setPhaseBody_of_ne h0 h360 hne)

end Sys2Proof.Machine
end

section
/-! SUPPORT. TOGGLEF, TOGGLEP and SETWAVE (spec/44_control.md): the one control word of each, and two toggles in a row. -/

namespace Sys2Proof.Machine

/-! ### The toggles (R100, R101) -/

/-- The body a toggle comes to: the control word with the field under `mask` flipped, sent and staged. -/
def toggleBody (mask : Word) (sh : Shadow) : Body :=
  .writes [ctrlWord (sh.ctrl ^^^ mask)] { sh with ctrl := sh.ctrl ^^^ mask }

theorem commandBody_togglef (m : Clock) : commandBody m .togglef = toggleBody 0x0800#16 := rfl

theorem commandBody_togglep (m : Clock) : commandBody m .togglep = toggleBody 0x0400#16 := rfl

/-- Settles O26: the body is the one control word with bit 11 flipped. -/
theorem togglefRule : Obligations.TogglefRule := by
  refine ⟨fun _ => rfl, ?_⟩
  rintro s _ hi rfl
  exact exec_oneWord rfl hi (congrFun (commandBody_togglef s.mclk) s.shadow)

/-- Settles O27: the body is the one control word with bit 10 flipped. -/
theorem togglepRule : Obligations.TogglepRule := by
  refine ⟨fun _ => rfl, ?_⟩
  rintro s _ hi rfl
  exact exec_oneWord rfl hi (congrFun (commandBody_togglep s.mclk) s.shadow)

/-! ### SETWAVE (R102) -/

/-- R88's table of patterns. -/
theorem waveBits_table :
    ∀ p ∈ [(Wave.sine, 0x0000#16), (Wave.triangle, 0x0002#16), (Wave.squareDiv2, 0x0020#16), (Wave.square, 0x0028#16)],
      waveBits p.1 = p.2 := by
  decide

/-- SETWAVE copies the complement of WAVEMASK (R17) and sets the shape's pattern. -/
theorem waveCtrl_eq (ctrl : Word) (shape : Wave) : waveCtrl ctrl shape = ctrl &&& 0xFFD5#16 ||| waveBits shape := by
  have hmask : ~~~waveMask = 0xFFD5#16 := by decide
  rw [waveCtrl, hmask]

theorem setWaveBody_current (sh : Shadow) : setWaveBody sh.wave sh = .unchanged := if_pos rfl

/-- Another shape than the current one writes one control word, and stages it with the shape. -/
theorem setWaveBody_of_ne {shape : Wave} {sh : Shadow} (hne : shape ≠ sh.wave) :
    setWaveBody shape sh =
      .writes [ctrlWord (waveCtrl sh.ctrl shape)] { sh with ctrl := waveCtrl sh.ctrl shape, wave := shape } :=
  if_neg hne

/-- Settles O28: the current shape finishes UNCHANGED, and another one writes the control word with its pattern. -/
theorem setwaveRule : Obligations.SetwaveRule := by
  refine ⟨fun _ => ⟨rfl, rfl, rfl, rfl⟩, fun s hi => ?_, ?_⟩
  · have hbody : commandBody s.mclk (.setwave s.shadow.wave) s.shadow = .unchanged := setWaveBody_current s.shadow
    rw [exec_command_iff rfl hi, hbody]
    exact .unchanged
  · rintro s shape bits _ hi hne hmem rfl
    have hbits : waveBits shape = bits := waveBits_table (shape, bits) hmem
    rw [← hbits, ← waveCtrl_eq]
    exact exec_oneWord rfl hi (setWaveBody_of_ne hne)

/-! ### Two toggles in a row (R103) -/

/-- After a command that ended OK the answers go on behind the words it sent. -/
theorem State.answerAt_okAfter (s : State) (ws : List Word) (sh : Shadow) (k : Nat) :
    (s.okAfter ws sh).answerAt k = s.answerAt (ws.length + k) := by
  simp [State.answerAt, State.okAfter, Nat.add_assoc]

theorem State.allOk_okAfter {s : State} {ws : List Word} {n : Nat} (hok : s.AllOk (ws.length + n)) (sh : Shadow) :
    (s.okAfter ws sh).AllOk n := by
  intro k hk
  rw [State.answerAt_okAfter]
  exact hok _ (Nat.add_lt_add_left hk _)

theorem wordsOf_okEvents (ws : List Word) : wordsOf (okEvents ws) = ws := by
  simp [okEvents, wordsOf_append, wordsOf_writes, wordsOf]

section Toggle

variable {i : Instr} {mask : Word} (hc : i.isCommand = true) (hbody : ∀ m, commandBody m i = toggleBody mask)

include hc hbody

/-- A toggle whose word succeeds commits the flipped control word. -/
theorem exec_toggle_ok {s t : State} (h : exec i s = .next t) (hi : s.Idle) (hok : s.AllOk 1) :
    t = s.okAfter [ctrlWord (s.shadow.ctrl ^^^ mask)] { s.shadow with ctrl := s.shadow.ctrl ^^^ mask } :=
  Host.Outcome.next.inj (h.symm.trans ((exec_oneWord hc hi (congrFun (hbody s.mclk) s.shadow)).1 hok))

/-- The second of two toggles flips the field back, and each sends one word. -/
theorem exec_toggle_twice {s t u : State} (hi : s.Idle) (hok : s.AllOk 2) (ht : exec i s = .next t)
    (hu : exec i t = .next u) :
    u.shadow = s.shadow ∧ ∃ es, u.trace = s.trace ++ es ∧ (wordsOf es).length = 2 := by
  obtain rfl := exec_toggle_ok hc hbody ht hi fun k hk => hok k (by omega)
  obtain rfl := exec_toggle_ok hc hbody hu rfl (State.allOk_okAfter (n := 1) hok _)
  constructor
  · have hflip : s.shadow.ctrl ^^^ mask ^^^ mask = s.shadow.ctrl := by rw [BitVec.xor_assoc, BitVec.xor_self, BitVec.xor_zero]
    exact congrArg (fun c => { s.shadow with ctrl := c }) hflip
  · exact ⟨_, List.append_assoc .., by rw [wordsOf_append, wordsOf_okEvents, wordsOf_okEvents]; rfl⟩

end Toggle

/-- Settles O29: either command flips the field under a fixed mask, and the second flip undoes the first. -/
theorem togglesRestore : Obligations.TogglesRestore := by
  rintro s t u i (rfl | rfl) hi hok ht hu
  · exact exec_toggle_twice rfl commandBody_togglef hi hok ht hu
  · exact exec_toggle_twice rfl commandBody_togglep hi hok ht hu

end Sys2Proof.Machine
end

section
/-! SUPPORT. The outcomes of a command (spec/60_exceptions.md): what makes a body refuse its argument, find its value unchanged or write,
what each outcome adds to the trace, and the steps without a command. -/

namespace Sys2Proof.Machine

/-! ### An argument out of range (R106) -/

/-- A value outside a closed interval is not in it. -/
theorem not_between {q a b : Rat} (h : q < a ∨ b < q) : ¬(a ≤ q ∧ q ≤ b) := by
  rwa [not_and_or, not_le, not_le]

theorem setFreqBody_outOfRange {m : Clock} {q : Rat} (h : q < 0 ∨ m.hz < q) (sh : Shadow) (slot : Slot) :
    setFreqBody m sh slot q = .invalidArg q :=
  if_neg (mt (freqValid_iff m q).mp (not_between h))

theorem setPhaseBody_outOfRange {q : Rat} (h : q < 0 ∨ 360 < q) (sh : Shadow) (slot : Slot) :
    setPhaseBody sh slot q = .invalidArg q :=
  if_neg (mt (phaseValid_iff q).mp (not_between h))

/-- A command whose body refuses its argument ends INVALID_ARG. -/
theorem exec_invalidArg {s : State} {i : Instr} {q : Rat} (hc : i.isCommand = true) (hi : s.Idle)
    (hb : commandBody s.mclk i s.shadow = .invalidArg q) : exec i s = .next (s.invalidAfter q) := by
  rw [exec_command_iff hc hi, hb]
  exact .invalidArg q

/-- Settles O30: the common body of each register command tests the range first, whichever slot it is given. -/
theorem invalidArgument : Obligations.InvalidArgument := by
  refine fun s q hi => ⟨fun hq => ⟨fun slot => ?_, ?_⟩, fun hq => ⟨fun slot => ?_, ?_⟩⟩
  · exact exec_invalidArg rfl hi (setFreqBody_outOfRange hq s.shadow slot)
  · exact exec_invalidArg rfl hi (setFreqBody_outOfRange hq s.shadow s.shadow.activeFreq)
  · exact exec_invalidArg rfl hi (setPhaseBody_outOfRange hq s.shadow slot)
  · exact exec_invalidArg rfl hi (setPhaseBody_outOfRange hq s.shadow s.shadow.activePhase)

/-! ### A value the shadow already holds (R107) -/

theorem setFreqBody_held {m : Clock} {sh : Shadow} {slot : Slot} {hz : Rat} (h0 : 0 ≤ hz) (hm : hz ≤ m.hz)
    (heq : frequencyToRegister m hz = sh.freq slot) : setFreqBody m sh slot hz = .unchanged := by
  rw [setFreqBody, if_pos ((freqValid_iff m hz).mpr ⟨h0, hm⟩), setFreqValue, if_pos heq]

theorem setPhaseBody_held {sh : Shadow} {slot : Slot} {deg : Rat} (h0 : 0 ≤ deg) (h360 : deg ≤ 360)
    (heq : phaseToRegister deg = sh.phase slot) : setPhaseBody sh slot deg = .unchanged := by
  rw [setPhaseBody, if_pos ((phaseValid_iff deg).mpr ⟨h0, h360⟩), setPhaseValue, if_pos heq]

/-- A command whose body finds its value in the shadow ends UNCHANGED. -/
theorem exec_unchanged {s : State} {i : Instr} (hc : i.isCommand = true) (hi : s.Idle)
    (hb : commandBody s.mclk i s.shadow = .unchanged) : exec i s = .next s.unchangedAfter := by
  rw [exec_command_iff hc hi, hb]
  exact .unchanged

/-- Settles O31: each body compares the encoded value with the register it targets, and an active form is the explicit one on its slot. -/
theorem unchangedValue : Obligations.UnchangedValue := by
  refine fun s hi => ⟨fun hz slot h0 hm heq => ?_, fun deg slot h0 h360 heq => ?_, ?_⟩
  · have hexplicit := exec_unchanged (i := .setfreq slot hz) rfl hi (setFreqBody_held h0 hm heq)
    exact ⟨hexplicit, fun hslot => (exec_setfreq_form hi (.inr ⟨rfl, hslot⟩)).trans hexplicit⟩
  · have hexplicit := exec_unchanged (i := .setphase slot deg) rfl hi (setPhaseBody_held h0 h360 heq)
    exact ⟨hexplicit, fun hslot => (exec_setphase_form hi (.inr ⟨rfl, hslot⟩)).trans hexplicit⟩
  · exact exec_unchanged rfl hi (setWaveBody_current s.shadow)

/-! ### How many words a command writes (R90 to R103) -/

theorem freqShape_length (i : Slot) (v old : Freq) (ctrl : Word) :
    (freqShape i v old ctrl).2.length = 2 ∨ (freqShape i v old ctrl).2.length = 3 := by
  unfold freqShape
  split_ifs <;> simp

theorem setFreqBody_length {m : Clock} {sh sh' : Shadow} {i : Slot} {hz : Rat} {ws : List Word}
    (h : setFreqBody m sh i hz = .writes ws sh') : ws.length = 2 ∨ ws.length = 3 := by
  unfold setFreqBody setFreqValue at h
  split_ifs at h
  cases h
  exact freqShape_length _ _ _ _

theorem setPhaseBody_length {sh sh' : Shadow} {i : Slot} {deg : Rat} {ws : List Word}
    (h : setPhaseBody sh i deg = .writes ws sh') : ws.length = 1 := by
  unfold setPhaseBody setPhaseValue at h
  split_ifs at h
  cases h
  rfl

/-- A command that writes has a word to write, and INIT's ten are the most. -/
theorem commandBody_length {m : Clock} {i : Instr} {sh sh' : Shadow} {ws : List Word}
    (h : commandBody m i sh = .writes ws sh') : 1 ≤ ws.length ∧ ws.length ≤ 10 := by
  cases i with
  | init => cases h; decide
  | setfreq | setfreqA =>
    have hlen := setFreqBody_length h
    omega
  | setphase | setphaseA =>
    have hlen := setPhaseBody_length h
    omega
  | togglef | togglep => cases h; simp
  | setwave shape =>
    simp only [commandBody, setWaveBody] at h
    split_ifs at h
    cases h
    simp
  | wCtrl | wFreq0 | wFreq1 | wPhase0 | wPhase1 => cases h

/-! ### A failed word (R108, R112) -/

theorem State.AllOk.mono {s : State} {m n : Nat} (h : s.AllOk n) (hmn : m ≤ n) : s.AllOk m :=
  fun k hk => h k (hk.trans_le hmn)

/-- Settles O32: the command that failed had the list `sent ++ w :: later`, and its body gives the same list on `u`, where it succeeds. -/
theorem busFailStopsAtOnce : Obligations.BusFailStopsAtOnce := by
  intro s t i hi hc hex hstatus
  have hends := (exec_command_iff hc hi).mp hex
  generalize hb : commandBody s.mclk i s.shadow = b at hends
  cases hends with
  | invalidArg | unchanged | ok => simp at hstatus
  | busFail sent later w sh hok hf =>
    refine ⟨sent, later, w, sh, hok, hf, rfl, fun u hu huok hsh hm => ?_⟩
    rw [exec_command_iff hc hu, hsh, hm, hb]
    exact .ok _ sh (huok.mono (commandBody_length hb).2)

/-- Settles O35: of the outcomes only OK commits, and only BUS_FAIL, with its own code, touches SYNCED. -/
theorem outcomesArePrecise : Obligations.OutcomesArePrecise := by
  intro s t i hi hc hex hstatus
  have hends := (exec_command_iff hc hi).mp hex
  generalize commandBody s.mclk i s.shadow = b at hends
  cases hends with
  | invalidArg | unchanged | busFail => rfl
  | ok => simp at hstatus

/-! ### One outcome per command (R104, R109) -/

/-- UNCHANGED is an outcome of the commands that compare a value with the shadow, not of INIT or a toggle. -/
theorem commandBody_unchanged {m : Clock} {i : Instr} {sh : Shadow} (h : commandBody m i sh = .unchanged) :
    i ≠ .init ∧ i ≠ .togglef ∧ i ≠ .togglep := by
  refine ⟨?_, ?_, ?_⟩ <;> (rintro rfl; cases h)

theorem setFreqBody_refused {m : Clock} {sh : Shadow} {slot : Slot} {hz q : Rat}
    (h : setFreqBody m sh slot hz = .invalidArg q) : hz = q := by
  unfold setFreqBody setFreqValue at h
  split_ifs at h
  exact Body.invalidArg.inj h

theorem setPhaseBody_refused {sh : Shadow} {slot : Slot} {deg q : Rat}
    (h : setPhaseBody sh slot deg = .invalidArg q) : deg = q := by
  unfold setPhaseBody setPhaseValue at h
  split_ifs at h
  exact Body.invalidArg.inj h

/-- INVALID_ARG is an outcome of the commands that take a number, and the value refused is that number. -/
theorem commandBody_refused {m : Clock} {i : Instr} {sh : Shadow} {q : Rat} (h : commandBody m i sh = .invalidArg q) :
    (∃ slot, i = .setfreq slot q) ∨ i = .setfreqA q ∨ (∃ slot, i = .setphase slot q) ∨ i = .setphaseA q := by
  cases i with
  | setfreq slot hz => exact .inl ⟨slot, setFreqBody_refused h ▸ rfl⟩
  | setfreqA hz => exact .inr (.inl (setFreqBody_refused h ▸ rfl))
  | setphase slot deg => exact .inr (.inr (.inl ⟨slot, setPhaseBody_refused h ▸ rfl⟩))
  | setphaseA deg => exact .inr (.inr (.inr (setPhaseBody_refused h ▸ rfl)))
  | setwave shape =>
    simp only [commandBody, setWaveBody] at h
    split_ifs at h
  | init | togglef | togglep | wCtrl | wFreq0 | wFreq1 | wPhase0 | wPhase1 => cases h

theorem wordsOf_failEvents (sent : List Word) (w : Word) : wordsOf (failEvents sent w) = sent ++ [w] := by
  simp [failEvents, wordsOf_append, wordsOf_writes, wordsOf]

/-- Settles O34: a command's body comes to one of three things, and the answers decide between OK and BUS_FAIL where it writes. -/
theorem oneOutcomePerCommand : Obligations.OneOutcomePerCommand := by
  intro s i hi hc
  have hex := exec_command hc s
  have hends := (exec_command_iff hc hi).mp hex
  generalize s.runCommand i (commandBody s.mclk i) = t at hex hends
  generalize hb : commandBody s.mclk i s.shadow = b at hends
  cases hends with
  | invalidArg q =>
    exact ⟨_, _, _, hex, rfl, rfl, rfl, rfl, Nat.zero_le _, .inr (.inr (.inl ⟨q, rfl, rfl, commandBody_refused hb⟩))⟩
  | unchanged =>
    exact ⟨_, _, _, hex, rfl, rfl, rfl, rfl, Nat.zero_le _, .inr (.inl ⟨rfl, rfl, commandBody_unchanged hb⟩)⟩
  | ok ws sh =>
    obtain ⟨hpos, hten⟩ := commandBody_length hb
    refine ⟨_, _, okEvents ws, hex, rfl, rfl, rfl, rfl, ?_, .inl ⟨rfl, ?_⟩⟩ <;> rw [wordsOf_okEvents]
    · exact hten
    · exact List.length_pos_iff.mp hpos
  | busFail sent later w sh =>
    have hten := (commandBody_length hb).2
    refine ⟨_, _, failEvents sent w, hex, rfl, rfl, rfl, rfl, ?_, .inr (.inr (.inr ⟨?_, ?_⟩))⟩ <;> rw [wordsOf_failEvents]
    · simp only [List.length_append, List.length_cons, List.length_nil] at hten ⊢
      omega
    · rw [List.length_append]
      rfl
    · simp

/-! ### Steps without a session (R105, R122) -/

/-- The step reports an illegal command once the command in progress has ended. -/
theorem step_illegal {s : State} {c : Code} {arg : Rat} {rest : List Input} (hin : s.inputs = .cmd c arg :: rest)
    (hl : legal c = false) : step s = .next ({ s with inputs := rest }.reportIllegal c) := by
  have hnone : ¬∃ i, decodeCmd c arg = .ok i := by simp [decodeCmd_accepts, hl]
  simp only [step, hin, State.runInput]
  cases hd : decodeCmd c arg with
  | ok i => exact absurd ⟨i, hd⟩ hnone
  | error e => rfl

/-- Settles O3: the decoder refuses a code that is not legal, and every command adds one session to the trace. -/
theorem stepReportsIllegal : Obligations.StepReportsIllegal := by
  refine ⟨fun s c arg rest hi hin hl => ?_, fun s t i hi hc hex => ?_⟩
  · rw [step_illegal hin hl, State.reportIllegal_idle (s := { s with inputs := rest }) hi]
  · obtain ⟨es, ht⟩ := ((exec_command_iff hc hi).mp hex).session
    exact ⟨_, ht⟩

/-- Settles O4: with nothing presented a step only drains, and an idle block has nothing to drain. -/
theorem idleStepWaits : Obligations.IdleStepWaits := by
  intro s hi hin
  rw [step, hin]
  exact congrArg Host.Outcome.next (State.drain_idle hi)

end Sys2Proof.Machine
end

section
/-! SUPPORT. The reset and hazard notes (spec/70_reset_and_hazards.md): the positive clock of R127, INIT on a chip with a half pending (R130),
and the word counts of R135. -/

namespace Sys2Proof

/-! ### The clock (R127) -/

theorem Clock.make_of_pos {q : Rat} (h : 0 < q) : Clock.make q = some ⟨q, h⟩ := dif_pos h

theorem Clock.make_of_nonpos {q : Rat} (h : q ≤ 0) : Clock.make q = none := dif_neg (not_lt.mpr h)

/-- Settles O6: a clock carries the proof that it is positive, and a rational is positive or refused. -/
theorem clockMustBePositive : Obligations.ClockMustBePositive := by
  refine fun q => ⟨⟨?_, fun hpos => ⟨_, Clock.make_of_pos hpos, rfl⟩⟩, fun hnone => ?_, Clock.make_of_nonpos⟩
  · rintro ⟨m, _, rfl⟩
    exact m.pos
  · by_contra hpos
    rw [Clock.make_of_pos (not_le.mp hpos)] at hnone
    cases hnone

namespace Machine

/-! ### INIT on a chip with a half pending (R58 (a), R130) -/

section PendingPair

variable {c : ChipRegs} {lo : Half} {w : Word} (hw : w.getLsbD 13 = true) {i : Slot} (a b : Half)
include hw

/-- A pair sent to the slot whose half is pending: its first word completes the old pair, and its second is left pending. -/
theorem Chip.receive_pair_pending (hp : c.pend = some (i, lo)) :
    [ctrlWord w, freqWord i a, freqWord i b].foldl Chip.receive (.live c) =
      .live { ChipRegs.setFreq { c with ctrl := w.extractLsb' 0 14 } i (a ++ lo) with pend := some (i, b) } := by
  have hb := (c.b28_of_word w).trans hw
  simp only [List.foldl_cons, List.foldl_nil, Chip.receive_ctrlWord, Chip.receive_freqWord]
  rw [ChipRegs.receiveFreq_second i a hb hp, Chip.receive_freqWord,
    ChipRegs.receiveFreq_first i b (by simpa [ChipRegs.b28] using hb) rfl]

/-- A pair sent to one slot while the other slot's half is pending stops the chip at its first word. -/
theorem Chip.receive_pair_otherSlot {j : Slot} (hp : c.pend = some (j, lo)) (hj : j ≠ i) :
    [ctrlWord w, freqWord i a, freqWord i b].foldl Chip.receive (.live c) = .stopped .otherSlotPending := by
  have hb := (c.b28_of_word w).trans hw
  simp only [List.foldl_cons, List.foldl_nil, Chip.receive_ctrlWord, Chip.receive_freqWord]
  rw [ChipRegs.receiveFreq_otherSlot i a hb hp hj, Chip.receive]

end PendingPair

/-- INIT's words stop a chip with a half pending: slot 1's half meets the pair for slot 0, and slot 0's is completed a word early, which
leaves a half of slot 0 for the pair for slot 1 to meet. -/
theorem initWords_chip_pending {c : ChipRegs} {i : Slot} {lo : Half} (hp : c.pend = some (i, lo)) :
    initWords.foldl Chip.receive (.live c) = .stopped .otherSlotPending := by
  have hreset : [ctrlWord maskRESET].foldl Chip.receive (.live c) = .live { c with ctrl := maskRESET.extractLsb' 0 14 } :=
    Chip.receive_ctrlWord c maskRESET
  have hb : (maskRESET ||| maskB28).getLsbD 13 = true := by decide
  simp only [initWords, initSlot, List.foldl_append]
  rw [hreset]
  cases i with
  | s0 =>
    rw [Chip.receive_pair_pending hb _ _ (by exact hp), Chip.receive_pair_otherSlot hb _ _ rfl (by decide)]
    simp only [Chip.foldl_receive_stopped]
  | s1 =>
    rw [Chip.receive_pair_otherSlot hb _ _ (by exact hp) (by decide)]
    simp only [Chip.foldl_receive_stopped]

/-- Settles O48: with every word succeeding INIT commits its registers, while its words stop the chip. -/
theorem stalePairSurvivesInit : Obligations.StalePairSurvivesInit := by
  intro s t c i lo hi hok hc hp hex
  have hrun : exec .init s = .next (s.okAfter initWords initShadow) := (exec_init_iff hi).mpr (.ok initWords initShadow hok)
  obtain rfl := Host.Outcome.next.inj (hrun.symm.trans hex)
  refine ⟨?_, rfl, rfl⟩
  change initWords.foldl Chip.receive s.chip = .stopped .otherSlotPending
  rw [hc, initWords_chip_pending hp]

/-! ### Word counts (R135) -/

/-- A frequency command sends two words where one half of the value is the register's already, else three (R96). -/
theorem freqShape_count (i : Slot) (v old : Freq) (ctrl : Word) :
    (freqShape i v old ctrl).2.length = if upper14 v = upper14 old ∨ lower14 v = lower14 old then 2 else 3 := by
  by_cases hupper : upper14 v = upper14 old
  · simp [freqShape, hupper]
  · by_cases hlower : lower14 v = lower14 old <;> simp [freqShape, hupper, hlower]

theorem setFreqBody_count {m : Clock} {sh sh' : Shadow} {i : Slot} {hz : Rat} {ws : List Word}
    (h : setFreqBody m sh i hz = .writes ws sh') :
    ws.length = if upper14 (frequencyToRegister m hz) = upper14 (sh.freq i) ∨
      lower14 (frequencyToRegister m hz) = lower14 (sh.freq i) then 2 else 3 := by
  unfold setFreqBody setFreqValue at h
  split_ifs at h
  cases h
  exact freqShape_count _ _ _ _

theorem setWaveBody_length {shape : Wave} {sh sh' : Shadow} {ws : List Word} (h : setWaveBody shape sh = .writes ws sh') :
    ws.length = 1 := by
  unfold setWaveBody at h
  split_ifs at h
  cases h
  rfl

/-- A command that ends OK has sent the words of its body, and no others. -/
theorem commandBody_of_status_ok {s t : State} {i : Instr} {es : List Event} (hi : s.Idle) (hc : i.isCommand = true)
    (hex : exec i s = .next t) (hstatus : t.status = 0#3) (htrace : t.trace = s.trace ++ es) :
    ∃ sh, commandBody s.mclk i s.shadow = .writes (wordsOf es) sh := by
  have hends := (exec_command_iff hc hi).mp hex
  generalize commandBody s.mclk i s.shadow = b at hends
  cases hends with
  | invalidArg | unchanged | busFail => simp at hstatus
  | ok ws sh =>
    obtain rfl : okEvents ws = es := List.append_cancel_left htrace
    exact ⟨sh, by rw [wordsOf_okEvents]⟩

/-- Settles O36: the words of a command that ends OK are its body's list, whose length each body fixes. -/
theorem wordCounts : Obligations.WordCounts := by
  intro s t i es hi hc hex hstatus htrace
  obtain ⟨sh, hbody⟩ := commandBody_of_status_ok hi hc hex hstatus htrace
  cases i with
  | init => exact congrArg List.length (Body.writes.inj hbody).1.symm
  | setfreq | setfreqA => exact setFreqBody_count hbody
  | setphase | setphaseA => exact setPhaseBody_length hbody
  | togglef | togglep => exact congrArg List.length (Body.writes.inj hbody).1.symm
  | setwave => exact setWaveBody_length hbody
  | wCtrl | wFreq0 | wFreq1 | wPhase0 | wPhase1 => cases hbody

end Machine

end Sys2Proof
end
